-- ==== Sys2Proof/Word.lean ====
section
/-! DEFINITION. The word types of covx/lc3 CORE (00_scope.md R5, R7, R8). -/

namespace Sys2Proof

/-- The 16-bit value of every register, memory word, address and instruction (R5 `XLEN`, `ALEN`; R8).
`+` on it is the addition modulo 2^16 of R8, `&&&` and `~~~` are `AND` and `NOT`. -/
abbrev Word := BitVec 16

/-- One byte of the console stream, of the image stream, and the 8-bit trap vector (R10, R15, R72). -/
abbrev Byte := BitVec 8

/-- `v[7:0]` (R7). -/
abbrev Word.lowByte (v : Word) : Byte := v.extractLsb' 0 8

/-- `v[15:8]` (R7). -/
abbrev Word.highByte (v : Word) : Byte := v.extractLsb' 8 8

end Sys2Proof
end

