-- ==== Sys2Proof/Config.lean ====
section
/-! DEFINITION. The open parameters of the spec, as constants without a body: no proof can see a value of
one. The parameters with a value (addresses, encodings) are in Machine/Params.lean. -/

namespace Sys2Proof

/-- What the host answers to one call of the keyboard port, `Kbd.poll()` or `Kbd.read()` (R15). -/
inductive KbdAnswer where
  /-- `None` to a poll; to a blocking read, that no key has come yet (R52, R119, R217). -/
  | noKey
  /-- `Key(k)`, a 16-bit key code (decision D11). -/
  | key (k : Word)
  /-- `Interrupt`, the escape key or host cancel (R206). -/
  | interrupt
deriving DecidableEq, Repr, Inhabited

namespace Config

/-- `IN_PROMPT` (R6, R174, decision D12): a finite byte list the spec leaves open.
A FREE VALUE (assumption 6): nothing is known of it. -/
opaque inPrompt : List Byte

/-- The host's answer to the keyboard call number `n` that the state's list of answers does not give (R71,
decision D10: every answer is a free input). A FREE VALUE (assumption 5). -/
opaque kbdAnswer : Nat → KbdAnswer

end Config
end Sys2Proof
end

