-- ==== Sys2Proof/Syntax.lean ====
section
/-! DEFINITION. Instructions as syntax: one constructor for each row of spec/opcode_table.json. -/

namespace Sys2Proof

/-- A general register number, R0 to R7 (R21, R82: all eight values of a 3-bit field are legal). -/
inductive Reg where
  | r0 | r1 | r2 | r3 | r4 | r5 | r6 | r7
deriving DecidableEq, Repr, Inhabited

/-- The sixteen instruction classes that `instr[15:12]` selects (R85). -/
inductive Opcode where
  | br | add | ld | st | jsr | and | ldr | str | rti | not | ldi | sti | jmp | res | lea | trap
deriving DecidableEq, Repr

/-- The six trap services (R93). -/
inductive TrapName where
  | getc | out | puts | inKey | putsp | halt
deriving DecidableEq, Repr

/-- The instructions. Offsets and immediates are the raw fields of R82; the meanings sign-extend them (R84).
The rows of the table marked as another name (`RET`, `NOP`, the six services) have constructors of their own;
`Instr.core` gives the row each of them is a name of. The reserved opcodes keep their 12 ignored bits, because
the diagnostic of R192 carries the whole instruction word. -/
inductive Instr where
  /-- `BR` with a mask that is not 000 (R140). -/
  | br (n z p : Bool) (off : BitVec 9)
  /-- `ADD DR, SR1, SR2` (R130). -/
  | addReg (dr sr1 sr2 : Reg)
  /-- `ADD DR, SR1, #imm5` (R131). -/
  | addImm (dr sr1 : Reg) (imm5 : BitVec 5)
  /-- `LD DR, #PCoffset9` (R150). -/
  | ld (dr : Reg) (off : BitVec 9)
  /-- `ST SR, #PCoffset9` (R160). -/
  | st (sr : Reg) (off : BitVec 9)
  /-- `JSR #PCoffset11` (R143). -/
  | jsr (off : BitVec 11)
  /-- `JSRR BaseR` (R144). -/
  | jsrr (base : Reg)
  /-- `AND DR, SR1, SR2` (R132). -/
  | andReg (dr sr1 sr2 : Reg)
  /-- `AND DR, SR1, #imm5` (R133). -/
  | andImm (dr sr1 : Reg) (imm5 : BitVec 5)
  /-- `LDR DR, BaseR, #offset6` (R152). -/
  | ldr (dr base : Reg) (off : BitVec 6)
  /-- `STR SR, BaseR, #offset6` (R162). -/
  | str (sr base : Reg) (off : BitVec 6)
  /-- `RTI`, reserved (R190). -/
  | rti (ignored : BitVec 12)
  /-- `NOT DR, SR` (R134). -/
  | not (dr sr : Reg)
  /-- `LDI DR, #PCoffset9` (R151). -/
  | ldi (dr : Reg) (off : BitVec 9)
  /-- `STI SR, #PCoffset9` (R161). -/
  | sti (sr : Reg) (off : BitVec 9)
  /-- `JMP BaseR` with a base other than R7 (R141). -/
  | jmp (base : Reg)
  /-- `RES`, reserved (R191). -/
  | res (ignored : BitVec 12)
  /-- `LEA DR, #PCoffset9` (R153). -/
  | lea (dr : Reg) (off : BitVec 9)
  /-- `TRAP` with a vector that names no service (R170, R177). -/
  | trap (vector : Byte)
  /-- `RET`, which is `JMP R7` (R142). -/
  | ret
  /-- `NOP`, which is `BR` with mask 000 (R92). -/
  | nop (off : BitVec 9)
  /-- `GETC`, which is `TRAP x20` (R171). -/
  | getc
  /-- `OUT`, which is `TRAP x21` (R172). -/
  | out
  /-- `PUTS`, which is `TRAP x22` (R173). -/
  | puts
  /-- `IN`, which is `TRAP x23` (R174). -/
  | inKey
  /-- `PUTSP`, which is `TRAP x24` (R175). -/
  | putsp
  /-- `HALT`, which is `TRAP x25` (R176). -/
  | halt
deriving DecidableEq, Repr

namespace Instr

/-- The instruction of a non-alias row that an alias is a name of (R92; `alias_of` in the table); every other
instruction is itself. -/
def core : Instr → Instr
  | .ret => .jmp .r7
  | .nop off => .br false false false off
  | .getc => .trap 0x20
  | .out => .trap 0x21
  | .puts => .trap 0x22
  | .inKey => .trap 0x23
  | .putsp => .trap 0x24
  | .halt => .trap 0x25
  | .br n z p off => .br n z p off
  | .addReg dr sr1 sr2 => .addReg dr sr1 sr2
  | .addImm dr sr1 imm5 => .addImm dr sr1 imm5
  | .ld dr off => .ld dr off
  | .st sr off => .st sr off
  | .jsr off => .jsr off
  | .jsrr base => .jsrr base
  | .andReg dr sr1 sr2 => .andReg dr sr1 sr2
  | .andImm dr sr1 imm5 => .andImm dr sr1 imm5
  | .ldr dr base off => .ldr dr base off
  | .str sr base off => .str sr base off
  | .rti ignored => .rti ignored
  | .not dr sr => .not dr sr
  | .ldi dr off => .ldi dr off
  | .sti sr off => .sti sr off
  | .jmp base => .jmp base
  | .res ignored => .res ignored
  | .lea dr off => .lea dr off
  | .trap vector => .trap vector

end Instr
end Sys2Proof
end

