-- ==== Sys2Proof/WellFormed.lean ====
section
/-! DEFINITION. Which terms of Instr are the instruction of some word. Every operand field is exactly as wide
as its field of R82, so the only terms shut out are second spellings: each word has ONE instruction, and a word
that the table's alias rows name is that alias's. -/

namespace Sys2Proof

namespace Instr

/-- `BR` has a mask that is not 000 (that is `NOP`, R92), `JMP` a base that is not R7 (that is `RET`, R142), and
`TRAP` a vector outside 0x20 to 0x25 (those are the services, R93). -/
def wellFormed : Instr → Bool
  | .br n z p _ => n || z || p
  | .jmp base => base != .r7
  | .trap vector => decide (vector.toNat < 0x20) || decide (0x25 < vector.toNat)
  | .addReg _ _ _ => true
  | .addImm _ _ _ => true
  | .ld _ _ => true
  | .st _ _ => true
  | .jsr _ => true
  | .jsrr _ => true
  | .andReg _ _ _ => true
  | .andImm _ _ _ => true
  | .ldr _ _ _ => true
  | .str _ _ _ => true
  | .rti _ => true
  | .not _ _ => true
  | .ldi _ _ => true
  | .sti _ _ => true
  | .res _ => true
  | .lea _ _ => true
  | .ret => true
  | .nop _ => true
  | .getc => true
  | .out => true
  | .puts => true
  | .inKey => true
  | .putsp => true
  | .halt => true

end Instr
end Sys2Proof
end

