-- ==== Sys2Proof/Decode.lean ====
section
/-! DEFINITION. Words to instructions and back (30_encoding.md R80 to R94). Decoding is total and refuses
nothing: "every one of the 65536 words decodes" (R86). -/

namespace Sys2Proof

/-! ### The opcode map and the vector map -/

/-- The parameter `OPCODE` (R6, R85; decision D1, from general knowledge; assumption 1). -/
def Opcode.bits : Opcode → BitVec 4
  | .br => 0x0
  | .add => 0x1
  | .ld => 0x2
  | .st => 0x3
  | .jsr => 0x4
  | .and => 0x5
  | .ldr => 0x6
  | .str => 0x7
  | .rti => 0x8
  | .not => 0x9
  | .ldi => 0xA
  | .sti => 0xB
  | .jmp => 0xC
  | .res => 0xD
  | .lea => 0xE
  | .trap => 0xF

/-- The sixteen opcodes (R85). -/
def Opcode.all : List Opcode :=
  [.br, .add, .ld, .st, .jsr, .and, .ldr, .str, .rti, .not, .ldi, .sti, .jmp, .res, .lea, .trap]

/-- The opcode with the given number. The map is a bijection (Laws/Decode.lean), so the default is never used. -/
def Opcode.ofBits (b : BitVec 4) : Opcode :=
  (Opcode.all.find? (fun o => o.bits == b)).getD .trap

/-- The vector of a service (R93; printed in the source). -/
def TrapName.vector : TrapName → Byte
  | .getc => 0x20
  | .out => 0x21
  | .puts => 0x22
  | .inKey => 0x23
  | .putsp => 0x24
  | .halt => 0x25

/-- The six services (R93). -/
def TrapName.all : List TrapName := [.getc, .out, .puts, .inKey, .putsp, .halt]

/-- The service a vector selects, or none: "0x00 to 0x1F, 0x26 to 0xFF" (R93). -/
def TrapName.ofVector (v : Byte) : Option TrapName :=
  TrapName.all.find? (fun n => n.vector == v)

/-- The instruction that a service's alias row names (R92). -/
def TrapName.instr : TrapName → Instr
  | .getc => .getc
  | .out => .out
  | .puts => .puts
  | .inKey => .inKey
  | .putsp => .putsp
  | .halt => .halt

/-! ### Register fields -/

/-- "A 3-bit register field with value `r` names general register R`r`" (R82). -/
def Reg.ofBits (b : BitVec 3) : Reg :=
  match b.toNat with
  | 0 => .r0
  | 1 => .r1
  | 2 => .r2
  | 3 => .r3
  | 4 => .r4
  | 5 => .r5
  | 6 => .r6
  | _ => .r7

/-- The number of a register (R82). -/
def Reg.bits : Reg → BitVec 3
  | .r0 => 0
  | .r1 => 1
  | .r2 => 2
  | .r3 => 3
  | .r4 => 4
  | .r5 => 5
  | .r6 => 6
  | .r7 => 7

/-! ### Field positions (R82) -/

/-- The opcode, `instr[15:12]` (R81). -/
def fieldOpcode (w : Word) : BitVec 4 := w.extractLsb' 12 4
/-- DR, or SR of a store, `instr[11:9]`. -/
def fieldDr (w : Word) : Reg := .ofBits (w.extractLsb' 9 3)
/-- SR1, BaseR, or SR of NOT (decision D4; assumption 3), `instr[8:6]`. -/
def fieldSr1 (w : Word) : Reg := .ofBits (w.extractLsb' 6 3)
/-- SR2, `instr[2:0]`. -/
def fieldSr2 (w : Word) : Reg := .ofBits (w.extractLsb' 0 3)
/-- The immediate-mode flag of ADD and AND, `instr[5]` (R94). -/
def fieldImmMode (w : Word) : Bool := w.getLsbD 5
/-- The mode bit of JSR and JSRR, `instr[11]` (R94). -/
def fieldJsrMode (w : Word) : Bool := w.getLsbD 11
/-- imm5, `instr[4:0]`. -/
def fieldImm5 (w : Word) : BitVec 5 := w.extractLsb' 0 5
/-- offset6, `instr[5:0]`. -/
def fieldOffset6 (w : Word) : BitVec 6 := w.extractLsb' 0 6
/-- PCoffset9, `instr[8:0]`. -/
def fieldPcOffset9 (w : Word) : BitVec 9 := w.extractLsb' 0 9
/-- PCoffset11, `instr[10:0]`. -/
def fieldPcOffset11 (w : Word) : BitVec 11 := w.extractLsb' 0 11
/-- trapvect8, `instr[7:0]` (decision D5; assumption 3). -/
def fieldTrapVect8 (w : Word) : Byte := w.extractLsb' 0 8
/-- The ignored bits of RTI and RES, `instr[11:0]`. -/
def fieldReserved (w : Word) : BitVec 12 := w.extractLsb' 0 12
/-- n, z, p of BR: `instr[11]`, `instr[10]`, `instr[9]` (decision D3; assumption 3). -/
def fieldNzp (w : Word) : Bool × Bool × Bool := (w.getLsbD 11, w.getLsbD 10, w.getLsbD 9)

/-! ### Decode -/

/-- `BR`, or `NOP` for mask 000 (R92). -/
def decodeBr (n z p : Bool) (off : BitVec 9) : Instr :=
  if n || z || p then .br n z p off else .nop off

/-- `JMP`, or `RET` for base R7 (R142). -/
def decodeJmp (base : Reg) : Instr :=
  if base = .r7 then .ret else .jmp base

/-- `TRAP`, or the service its vector names (R93). -/
def decodeTrap (v : Byte) : Instr :=
  match TrapName.ofVector v with
  | some name => name.instr
  | none => .trap v

/-- The decoder (R86): `instr[15:12]`, then `instr[5]` for ADD and AND, `instr[11]` for opcode 0x4, `instr[7:0]`
for TRAP. Bits no field covers are ignored (R87, decision D6). -/
def decode (w : Word) : Instr :=
  match Opcode.ofBits (fieldOpcode w) with
  | .br => decodeBr (fieldNzp w).1 (fieldNzp w).2.1 (fieldNzp w).2.2 (fieldPcOffset9 w)
  | .add =>
    if fieldImmMode w then .addImm (fieldDr w) (fieldSr1 w) (fieldImm5 w)
    else .addReg (fieldDr w) (fieldSr1 w) (fieldSr2 w)
  | .ld => .ld (fieldDr w) (fieldPcOffset9 w)
  | .st => .st (fieldDr w) (fieldPcOffset9 w)
  | .jsr => if fieldJsrMode w then .jsr (fieldPcOffset11 w) else .jsrr (fieldSr1 w)
  | .and =>
    if fieldImmMode w then .andImm (fieldDr w) (fieldSr1 w) (fieldImm5 w)
    else .andReg (fieldDr w) (fieldSr1 w) (fieldSr2 w)
  | .ldr => .ldr (fieldDr w) (fieldSr1 w) (fieldOffset6 w)
  | .str => .str (fieldDr w) (fieldSr1 w) (fieldOffset6 w)
  | .rti => .rti (fieldReserved w)
  | .not => .not (fieldDr w) (fieldSr1 w)
  | .ldi => .ldi (fieldDr w) (fieldPcOffset9 w)
  | .sti => .sti (fieldDr w) (fieldPcOffset9 w)
  | .jmp => decodeJmp (fieldSr1 w)
  | .res => .res (fieldReserved w)
  | .lea => .lea (fieldDr w) (fieldPcOffset9 w)
  | .trap => decodeTrap (fieldTrapVect8 w)

/-! ### Encode

The formats of R83, most significant field first. Ignored bits are 0, except NOT[5:0] = 111111 (R87). -/

/-- Format `PCREL`. -/
def encodePcRel (o : Opcode) (r : Reg) (off : BitVec 9) : Word := o.bits ++ r.bits ++ off
/-- Format `BASE`. -/
def encodeBase (o : Opcode) (r base : Reg) (off : BitVec 6) : Word := o.bits ++ r.bits ++ base.bits ++ off
/-- Format `OPR_R`. -/
def encodeOprR (o : Opcode) (dr sr1 sr2 : Reg) : Word := o.bits ++ dr.bits ++ sr1.bits ++ 0#1 ++ 0#2 ++ sr2.bits
/-- Format `OPR_I`. -/
def encodeOprI (o : Opcode) (dr sr1 : Reg) (imm5 : BitVec 5) : Word := o.bits ++ dr.bits ++ sr1.bits ++ 1#1 ++ imm5
/-- Format `NOT`. -/
def encodeNot (dr sr : Reg) : Word := Opcode.not.bits ++ dr.bits ++ sr.bits ++ 0x3F#6
/-- Format `BR`. -/
def encodeBr (n z p : Bool) (off : BitVec 9) : Word :=
  Opcode.br.bits ++ BitVec.ofBool n ++ BitVec.ofBool z ++ BitVec.ofBool p ++ off
/-- Format `JMP`. -/
def encodeJmp (base : Reg) : Word := Opcode.jmp.bits ++ 0#3 ++ base.bits ++ 0#6
/-- Format `JSR`. -/
def encodeJsr (off : BitVec 11) : Word := Opcode.jsr.bits ++ 1#1 ++ off
/-- Format `JSRR`. -/
def encodeJsrr (base : Reg) : Word := Opcode.jsr.bits ++ 0#1 ++ 0#2 ++ base.bits ++ 0#6
/-- Format `TRAP`. -/
def encodeTrap (v : Byte) : Word := Opcode.trap.bits ++ 0#4 ++ v
/-- Format `RSV`. -/
def encodeRsv (o : Opcode) (ignored : BitVec 12) : Word := o.bits ++ ignored

/-- The word of an instruction (R83, R85). -/
def encode : Instr → Word
  | .br n z p off => encodeBr n z p off
  | .addReg dr sr1 sr2 => encodeOprR .add dr sr1 sr2
  | .addImm dr sr1 imm5 => encodeOprI .add dr sr1 imm5
  | .ld dr off => encodePcRel .ld dr off
  | .st sr off => encodePcRel .st sr off
  | .jsr off => encodeJsr off
  | .jsrr base => encodeJsrr base
  | .andReg dr sr1 sr2 => encodeOprR .and dr sr1 sr2
  | .andImm dr sr1 imm5 => encodeOprI .and dr sr1 imm5
  | .ldr dr base off => encodeBase .ldr dr base off
  | .str sr base off => encodeBase .str sr base off
  | .rti ignored => encodeRsv .rti ignored
  | .not dr sr => encodeNot dr sr
  | .ldi dr off => encodePcRel .ldi dr off
  | .sti sr off => encodePcRel .sti sr off
  | .jmp base => encodeJmp base
  | .res ignored => encodeRsv .res ignored
  | .lea dr off => encodePcRel .lea dr off
  | .trap v => encodeTrap v
  | .ret => encodeJmp .r7
  | .nop off => encodeBr false false false off
  | .getc => encodeTrap TrapName.getc.vector
  | .out => encodeTrap TrapName.out.vector
  | .puts => encodeTrap TrapName.puts.vector
  | .inKey => encodeTrap TrapName.inKey.vector
  | .putsp => encodeTrap TrapName.putsp.vector
  | .halt => encodeTrap TrapName.halt.vector

/-! ### The opcode table

spec/opcode_table.json row by row, as `match` and `mask`, so that the decoder can be held against it. -/

/-- A row of the opcode table: a word is of the row if `word AND mask = match`. -/
structure Row where
  pattern : Word
  mask    : Word
deriving DecidableEq, Repr

/-- Whether a word is of a row. -/
def Row.covers (r : Row) (w : Word) : Bool := w &&& r.mask == r.pattern

/-- The row of each constructor. -/
def tableRow : Instr → Row
  | .br _ _ _ _ => ⟨0x0000, 0xF000⟩
  | .addReg _ _ _ => ⟨0x1000, 0xF020⟩
  | .addImm _ _ _ => ⟨0x1020, 0xF020⟩
  | .ld _ _ => ⟨0x2000, 0xF000⟩
  | .st _ _ => ⟨0x3000, 0xF000⟩
  | .jsr _ => ⟨0x4800, 0xF800⟩
  | .jsrr _ => ⟨0x4000, 0xF800⟩
  | .andReg _ _ _ => ⟨0x5000, 0xF020⟩
  | .andImm _ _ _ => ⟨0x5020, 0xF020⟩
  | .ldr _ _ _ => ⟨0x6000, 0xF000⟩
  | .str _ _ _ => ⟨0x7000, 0xF000⟩
  | .rti _ => ⟨0x8000, 0xF000⟩
  | .not _ _ => ⟨0x9000, 0xF000⟩
  | .ldi _ _ => ⟨0xA000, 0xF000⟩
  | .sti _ _ => ⟨0xB000, 0xF000⟩
  | .jmp _ => ⟨0xC000, 0xF000⟩
  | .res _ => ⟨0xD000, 0xF000⟩
  | .lea _ _ => ⟨0xE000, 0xF000⟩
  | .trap _ => ⟨0xF000, 0xF000⟩
  | .ret => ⟨0xC1C0, 0xF1C0⟩
  | .nop _ => ⟨0x0000, 0xFE00⟩
  | .getc => ⟨0xF020, 0xF0FF⟩
  | .out => ⟨0xF021, 0xF0FF⟩
  | .puts => ⟨0xF022, 0xF0FF⟩
  | .inKey => ⟨0xF023, 0xF0FF⟩
  | .putsp => ⟨0xF024, 0xF0FF⟩
  | .halt => ⟨0xF025, 0xF0FF⟩

/-- The 19 rows that are no alias, in the table's order (R86). -/
def coreRows : List Row :=
  [⟨0x0000, 0xF000⟩, ⟨0x1000, 0xF020⟩, ⟨0x1020, 0xF020⟩, ⟨0x2000, 0xF000⟩, ⟨0x3000, 0xF000⟩] ++
  [⟨0x4800, 0xF800⟩, ⟨0x4000, 0xF800⟩, ⟨0x5000, 0xF020⟩, ⟨0x5020, 0xF020⟩, ⟨0x6000, 0xF000⟩] ++
  [⟨0x7000, 0xF000⟩, ⟨0x8000, 0xF000⟩, ⟨0x9000, 0xF000⟩, ⟨0xA000, 0xF000⟩, ⟨0xB000, 0xF000⟩] ++
  [⟨0xC000, 0xF000⟩, ⟨0xD000, 0xF000⟩, ⟨0xE000, 0xF000⟩, ⟨0xF000, 0xF000⟩]

/-- The host's question: what the decoder reads from a table word. Every row of the table is one 16-bit word
(R80), and there is no second word, so a number with a bit above bit 15 is no instruction. -/
def decodeTableWord (nbits w : Nat) : Option Instr :=
  if nbits ≤ 16 ∧ w < 65536 then some (decode (BitVec.ofNat 16 w)) else none

end Sys2Proof
end

