-- ==== Sys2Proof/Machine/Params.lean ====
section
/-! DEFINITION. The parameters with a value (00_scope.md R5, R6). They stand here so that a claim can name them. -/

namespace Sys2Proof.Config

/-- `START_PC` (R5, R232). -/
def startPc : Word := 0x3000

/-- `KBSR_ADDR` (R6, R57; decision D2, from general knowledge; assumption 2). -/
def kbsrAddr : Word := 0xFE00

/-- `KBDR_ADDR` (R6, R57; decision D2, from general knowledge; assumption 2). -/
def kbdrAddr : Word := 0xFE02

/-- `KBSR_READY`: the status word when a key is pending (R5, R54). -/
def kbsrReady : Word := 0x8000

/-- The status word when no key is pending (R5, R54). -/
def kbsrIdle : Word := 0x0000

/-- COND for POSITIVE, bit 0 (R24; decision D3; assumption 3). -/
def condPositive : Word := 0x0001

/-- COND for ZERO, bit 1 (R24; decision D3; assumption 3). -/
def condZero : Word := 0x0002

/-- COND for NEGATIVE, bit 2 (R24; decision D3; assumption 3). -/
def condNegative : Word := 0x0004

/-- What an address that memory does not list reads as: memory is zero at reset (R33, R36; assumption 15). -/
def unlistedWord : Word := 0x0000

/-- How many words of a string PUTS and PUTSP read in one step of the model (R118: a service may be split into
internal steps): one pass over the whole memory. A string that ends within it is printed in one step (assumption 17). -/
def passLength : Nat := 65536

end Sys2Proof.Config
end

