-- ==== Sys2Proof/Machine/State.lean ====
section
/-! DEFINITION. The machine's state (10_state.md), the reasons a step can stop, and the state after reset. -/

namespace Sys2Proof.Machine

/-- R0 to R7 (R21). -/
structure RegFile where
  r0 : Word
  r1 : Word
  r2 : Word
  r3 : Word
  r4 : Word
  r5 : Word
  r6 : Word
  r7 : Word
deriving DecidableEq, Repr

/-- The memory array (R33, R50): (address, word) pairs, since the smallest unit is one 16-bit word (R58). The
canonical form is `Memory.wf`; an address not listed reads as `Config.unlistedWord` (assumption 15). -/
abbrev Memory := List (Nat × Word)

/-- Why the machine is HALTED (R32). -/
inductive HaltCause where
  /-- `TRAP x25` (R176). -/
  | trapHalt
  /-- The host asked the machine to stop (R206). -/
  | hostInterrupt
deriving DecidableEq, Repr

/-- Why the machine is FAULTED, with the information recorded (R32, R201). -/
inductive FaultReason where
  /-- `TRAP` with a vector outside 0x20 to 0x25 (R202). -/
  | unknownTrapVector (v : Byte)
deriving DecidableEq, Repr

/-- The run state (R32, R116; decisions D9 and D23, assumption 16). -/
inductive RunState where
  | running
  | halted (cause : HaltCause)
  | faulted (reason : FaultReason)
deriving DecidableEq, Repr

/-- A cycle that is inside a trap service and not finished (R118, R119): waiting at `Kbd.read()`, or printing a
string of which a whole pass over memory found no end. The word is the next address to read. The model's own
(assumption 17). -/
inductive Service where
  | getc
  | inKey
  | puts (a : Word)
  | putsp (a : Word)
deriving DecidableEq, Repr

/-- The diagnostic output (R192), not architectural (decision D21; assumption 18). -/
inductive DiagEvent where
  /-- `ReservedOpcode(instr, pc)`, with the advanced pc. -/
  | reservedOpcode (instr pc : Word)
deriving DecidableEq, Repr

/-- The host's side of the keyboard port (R71; decision D10): the answers it will give to the next calls, in order,
and, once they are used up, the number of free answers drawn. Every answer is a free input, so both are arbitrary. -/
structure Keyboard where
  answers : List KbdAnswer
  drawn   : Nat
deriving DecidableEq, Repr

/-- The state. `regs`, `pc`, `cond`, `mem` and `run` are the whole architectural state (R20). The rest is the ports
(R15) and the cycle in progress: the model's own, read by no instruction but through a port call. -/
structure State where
  /-- R0 to R7 (R21). -/
  regs     : RegFile
  /-- PC (R23). -/
  pc       : Word
  /-- COND, 16 bits wide (R24, R25). -/
  cond     : Word
  /-- The 65536 memory words, the two device words among them (R33). -/
  mem      : Memory
  /-- RUNNING, HALTED or FAULTED (R32). -/
  run      : RunState
  /-- The trap service the current cycle is inside of, if it is not finished (R118, R119). -/
  service  : Option Service
  /-- The keyboard port (R15, R71). -/
  kbd      : Keyboard
  /-- The host interrupt port (R206 case (a)): after how many more cycles the host asks for a stop, if ever (assumption 7). -/
  hostStop : Option Nat
  /-- The console port: every byte written, oldest first (R15, R181). -/
  console  : List Byte
  /-- The diagnostic port: every event, oldest first (R192). -/
  diag     : List DiagEvent
deriving DecidableEq, Repr

/-- Reasons a step could stop with a fault. `UnknownTrapVector` is not among them: it is a run state of the machine
(R203), so the instruction that raises it answers a next state. -/
inductive Fault where
  /-- `InvalidRegister` (R29, R204): the register-file contract raises it for an index outside 0 to 9. No instruction
  and no step does (decision D29), so it is safe. -/
  | invalidRegister (index : Nat)
deriving DecidableEq, Repr

/-- Reasons a step could be refused. -/
inductive Refusal where
  /-- Raised by an arm of `exec` without a meaning; no arm is left so, and no step answers it (safe). -/
  | notModelled (mnemonic : String)
deriving DecidableEq, Repr

/-- What an instruction's meaning answers. -/
abbrev StepResult := Host.Outcome State Fault Refusal

/-- What a memory read gives: the word and the state after the read, or, where the host answered `Interrupt` to the
poll, the halted state in which the cycle is cut (R52, R206). -/
inductive ReadResult where
  | value (w : Word) (s : State)
  | stopped (s : State)
deriving DecidableEq, Repr

/-- What the loader refuses (R234). -/
inductive LoadError where
  /-- `LoadError::Truncated`: the image has no origin. -/
  | truncated
deriving DecidableEq, Repr

namespace State

/-- The state after reset with nothing loaded (R36, R230), for any value of the open parameters `RESET_GPR` and
`RESET_COND` (decisions D7, D8) and any host: memory zero, pc 0x3000, RUNNING, the console empty. -/
def resetWith (gpr : RegFile) (cond : Word) (kbd : Keyboard) (hostStop : Option Nat) : State where
  regs := gpr
  pc := Config.startPc
  cond := cond
  mem := []
  run := .running
  service := none
  kbd := kbd
  hostStop := hostStop
  console := []
  diag := []

/-- The state after reset. DESIGN CHOICE (assumption 4, unsafe): R0 to R7 are 0 and COND is ZERO, where the spec leaves
`RESET_GPR` and `RESET_COND` open; claims about reset quantify over `resetWith` instead. The host has decided no
answer yet and never asks for a stop (the model's own fields; assumptions 5, 7, 17, 22). -/
def reset : State :=
  resetWith ⟨0, 0, 0, 0, 0, 0, 0, 0⟩ Config.condZero ⟨[], 0⟩ none

end State
end Sys2Proof.Machine
end

