-- ==== Sys2Proof/Machine/Flags.lean ====
section
/-! DEFINITION. The flag calculator and the branch test (10_state.md R24 to R28, 42_control.md R140). -/

namespace Sys2Proof.Machine

/-- The flag calculator (R26). -/
def flags (v : Word) : Word :=
  if v = 0x0000 then Config.condZero
  else if v.getLsbD 15 then Config.condNegative
  else Config.condPositive

/-- `setcc(v)` (R13). -/
def State.setcc (v : Word) (s : State) : State := { s with cond := flags v }

/-- The 3-bit mask of BR as a word: n in bit 2, z in bit 1, p in bit 0 (R140). -/
def branchMask (n z p : Bool) : Word :=
  (BitVec.ofBool n ++ BitVec.ofBool z ++ BitVec.ofBool p : BitVec 3).setWidth 16

/-- Whether BR is taken: `(mask AND cond) ≠ 0`, for any 16-bit content of COND (R140). -/
def branchTaken (n z p : Bool) (cond : Word) : Bool :=
  branchMask n z p &&& cond != 0

/-- COND holds one of its three values (R24, R25). -/
def condLegal (cond : Word) : Bool :=
  cond == Config.condPositive || cond == Config.condZero || cond == Config.condNegative

end Sys2Proof.Machine
end

