-- ==== Sys2Proof/Machine/Ops.lean ====
section
/-! DEFINITION. The named operations over registers, memory, the ports and the run state (00_scope.md R11 to R15,
20_memory.md R52, R53). -/

namespace Sys2Proof.Machine

/-! ### Registers -/

/-- Read Ri. -/
def RegFile.get (f : RegFile) : Reg → Word
  | .r0 => f.r0
  | .r1 => f.r1
  | .r2 => f.r2
  | .r3 => f.r3
  | .r4 => f.r4
  | .r5 => f.r5
  | .r6 => f.r6
  | .r7 => f.r7

/-- Write Ri. -/
def RegFile.set (f : RegFile) (r : Reg) (v : Word) : RegFile :=
  match r with
  | .r0 => { f with r0 := v }
  | .r1 => { f with r1 := v }
  | .r2 => { f with r2 := v }
  | .r3 => { f with r3 := v }
  | .r4 => { f with r4 := v }
  | .r5 => { f with r5 := v }
  | .r6 => { f with r6 := v }
  | .r7 => { f with r7 := v }

namespace State

/-- `x[i]` (R11). -/
def reg (s : State) (r : Reg) : Word := s.regs.get r

/-- `x[i] <- v` (R11). -/
def setReg (r : Reg) (v : Word) (s : State) : State := { s with regs := s.regs.set r v }

/-- `pc <- v` (R11). -/
def setPc (v : Word) (s : State) : State := { s with pc := v }

/-- Write the destination register, then COND from the value written: the end of every flag-setting instruction
(R26, R135, R154). -/
def writeResult (dr : Reg) (v : Word) (s : State) : State := (s.setReg dr v).setcc v

/-- The register-file contract `get(index)`: 0 to 7 are R0 to R7, 8 is PC, 9 is COND, and any other index fails with
`InvalidRegister` (R29, R204). No instruction uses it. -/
def entryGet (index : Nat) (s : State) : Except Fault Word :=
  if index < 8 then .ok (s.reg (.ofBits (BitVec.ofNat 3 index)))
  else if index = 8 then .ok s.pc
  else if index = 9 then .ok s.cond
  else .error (.invalidRegister index)

/-- The register-file contract `set(index, value)` (R29, R204). No instruction uses it. -/
def entrySet (index : Nat) (v : Word) (s : State) : Except Fault State :=
  if index < 8 then .ok (s.setReg (.ofBits (BitVec.ofNat 3 index)) v)
  else if index = 8 then .ok (s.setPc v)
  else if index = 9 then .ok { s with cond := v }
  else .error (.invalidRegister index)

end State

/-! ### The memory array -/

namespace Memory

/-- The canonical form: addresses strictly rising and below 65536 (R50), and no entry equal to what an unlisted
address reads as. -/
abbrev wf (m : Memory) : Prop :=
  m.Pairwise (fun c d => c.1 < d.1) ∧ ∀ c ∈ m, c.1 < 65536 ∧ c.2 ≠ Config.unlistedWord

/-- `MEM[a]`: the cell itself, with no side effect (R12). -/
def read : Memory → Word → Word
  | [], _ => Config.unlistedWord
  | (k, v) :: rest, a => if k = a.toNat then v else read rest a

/-- `MEM[a] <- v`, in the canonical form: writing what an unlisted address reads as removes the entry. -/
def write : Memory → Word → Word → Memory
  | [], a, v => if v = Config.unlistedWord then [] else [(a.toNat, v)]
  | (k, w) :: rest, a, v =>
    if k < a.toNat then (k, w) :: write rest a v
    else if k = a.toNat then (if v = Config.unlistedWord then rest else (k, v) :: rest)
    else if v = Config.unlistedWord then (k, w) :: rest
    else (a.toNat, v) :: (k, w) :: rest

end Memory

/-! ### The run state: halting, and the one fault -/

/-- `halt(c)` (R14, R117): the cycle is over, whatever service it was in. -/
def State.halt (c : HaltCause) (s : State) : State := { s with run := .halted c, service := none }

/-- `raise <Fault>(info)` (R14, R203): the machine enters the terminal state FAULTED and nothing else is written. It is
this hardware's only exceptional entry: no register is saved, no mode changes, no handler is fetched (R200, R208).
There is no return from it (R209). -/
def State.raise (r : FaultReason) (s : State) : State := { s with run := .faulted r, service := none }

/-! ### Ports -/

namespace Keyboard

/-- The answer to the next call of the keyboard port: the next listed one, else a free one (R71). -/
def answer (k : Keyboard) : KbdAnswer :=
  match k.answers with
  | a :: _ => a
  | [] => Config.kbdAnswer k.drawn

/-- The keyboard port after that call. -/
def advance (k : Keyboard) : Keyboard :=
  match k.answers with
  | _ :: rest => { k with answers := rest }
  | [] => { k with drawn := k.drawn + 1 }

end Keyboard

/-- The state after one call of the keyboard port. -/
def State.afterCall (s : State) : State := { s with kbd := s.kbd.advance }

/-- `Console.write_char` of each byte, in order (R15, R181). -/
def State.writeChars (bs : List Byte) (s : State) : State := { s with console := s.console ++ bs }

/-- `Diag(event)` (R15, R192). -/
def State.emitDiag (e : DiagEvent) (s : State) : State := { s with diag := s.diag ++ [e] }

/-! ### The two access primitives -/

/-- `MemWrite(a, 16, v)` (R53): a plain store, the device words included. -/
def memWrite (a v : Word) (s : State) : State := { s with mem := s.mem.write a v }

/-- `MemRead(a, 16)` (R52): a read of `KBSR_ADDR` polls the keyboard, updates the device words and returns the new
status; every other read is of the array. An `Interrupt` halts the machine, with neither device word written. -/
def memRead (a : Word) (s : State) : ReadResult :=
  if a = Config.kbsrAddr then
    let t := s.afterCall
    match s.kbd.answer with
    | .key k =>
      let u := memWrite Config.kbdrAddr k (memWrite Config.kbsrAddr Config.kbsrReady t)
      .value (u.mem.read Config.kbsrAddr) u
    | .noKey =>
      let u := memWrite Config.kbsrAddr Config.kbsrIdle t
      .value (u.mem.read Config.kbsrAddr) u
    | .interrupt => .stopped (t.halt .hostInterrupt)
  else .value (s.mem.read a) s

/-- Go on with the word read, or end the cycle where the read halted the machine (R206). -/
def ReadResult.andThen (r : ReadResult) (k : Word → State → StepResult) : StepResult :=
  match r with
  | .value w s => k w s
  | .stopped s => .next s

end Sys2Proof.Machine
end

