-- ==== Sys2Proof/Machine/Operands.lean ====
section
/-! DEFINITION. Operand forms: sign extension, immediates and the three addressing modes (00_scope.md R9,
30_encoding.md R84, 43_load.md R154). -/

namespace Sys2Proof.Machine

/-- `sext_N` (R9): if bit N-1 is set, the field OR'd with `0xFFFF << N`, else the field. -/
def sext {n : Nat} (f : BitVec n) : Word :=
  if f.getLsbD (n - 1) then f.setWidth 16 ||| (0xFFFF#16 <<< n) else f.setWidth 16

/-- PC-relative, 9 bits: the incremented PC plus `sext_9(PCoffset9)` (R84, R120). -/
def pcRel9 (off : BitVec 9) (s : State) : Word := s.pc + sext off

/-- PC-relative, 11 bits (R84, R143). -/
def pcRel11 (off : BitVec 11) (s : State) : Word := s.pc + sext off

/-- Base plus offset: `x[BaseR] + sext_6(offset6)` (R84, R152). -/
def baseOff (base : Reg) (off : BitVec 6) (s : State) : Word := s.reg base + sext off

end Sys2Proof.Machine
end

