-- ==== Sys2Proof/Machine/Control.lean ====
section
/-! DEFINITION. BR and NOP, JMP and RET, JSR, JSRR (42_control.md). `pc` is the incremented program counter (R120). -/

namespace Sys2Proof.Machine

/-- The branch of R140: `pc <- pc + sext_9(PCoffset9)` if the mask and COND share a bit. -/
def branch (n z p : Bool) (off : BitVec 9) (s : State) : State :=
  if branchTaken n z p s.cond then s.setPc (pcRel9 off s) else s

/-- `pc <- x[BaseR]` (R141). -/
def jumpTo (base : Reg) (s : State) : State := s.setPc (s.reg base)

/-- `BR` (R140). -/
def execBr (n z p : Bool) (off : BitVec 9) (s : State) : StepResult :=
  .next (branch n z p off s)

/-- `NOP`: `BR` with mask 000, never taken (R92, R140). -/
def execNop (off : BitVec 9) (s : State) : StepResult :=
  .next (branch false false false off s)

/-- `JMP BaseR` (R141). -/
def execJmp (base : Reg) (s : State) : StepResult :=
  .next (jumpTo base s)

/-- `RET`: `JMP R7` (R142). -/
def execRet (s : State) : StepResult :=
  .next (jumpTo .r7 s)

/-- `JSR #PCoffset11` (R143): R7 gets the return address. -/
def execJsr (off : BitVec 11) (s : State) : StepResult :=
  .next ((s.setReg .r7 s.pc).setPc (pcRel11 off s))

/-- `JSRR BaseR` (R144): R7 is written FIRST and the target read afterwards, so `JSRR R7` falls through (decision D16;
assumption 9). -/
def execJsrr (base : Reg) (s : State) : StepResult :=
  .next (jumpTo base (s.setReg .r7 s.pc))

end Sys2Proof.Machine
end

