-- ==== Sys2Proof/Machine/Load.lean ====
section
/-! DEFINITION. LD, LDI, LDR, LEA (43_load.md). Every read is a `memRead` (R70), so a read of `KBSR_ADDR` polls the
keyboard and may end the cycle, with DR and COND not written (R154). -/

namespace Sys2Proof.Machine

/-- `x[DR] <- MemRead(ea, 16)`, then COND (R154). -/
def loadFrom (dr : Reg) (ea : Word) (s : State) : StepResult :=
  (memRead ea s).andThen fun v t => .next (t.writeResult dr v)

/-- `LD DR, #PCoffset9` (R150). -/
def execLd (dr : Reg) (off : BitVec 9) (s : State) : StepResult :=
  loadFrom dr (pcRel9 off s) s

/-- `LDI DR, #PCoffset9` (R151): the pointer is read first, then the operand. -/
def execLdi (dr : Reg) (off : BitVec 9) (s : State) : StepResult :=
  (memRead (pcRel9 off s) s).andThen fun ea t => loadFrom dr ea t

/-- `LDR DR, BaseR, #offset6` (R152). -/
def execLdr (dr base : Reg) (off : BitVec 6) (s : State) : StepResult :=
  loadFrom dr (baseOff base off s) s

/-- `LEA DR, #PCoffset9` (R153): the address itself, with no memory access; it sets COND. -/
def execLea (dr : Reg) (off : BitVec 9) (s : State) : StepResult :=
  .next (s.writeResult dr (pcRel9 off s))

end Sys2Proof.Machine
end

