-- ==== Sys2Proof/Machine/Operate.lean ====
section
/-! DEFINITION. ADD, AND, NOT (41_operate.md). Sources are read from the state before the instruction (decision D25;
assumption 20); the sum is modulo 2^16, with no overflow event (R136). -/

namespace Sys2Proof.Machine

/-- `ADD DR, SR1, SR2` (R130). -/
def execAddReg (dr sr1 sr2 : Reg) (s : State) : StepResult :=
  .next (s.writeResult dr (s.reg sr1 + s.reg sr2))

/-- `ADD DR, SR1, #imm5` (R131). -/
def execAddImm (dr sr1 : Reg) (imm5 : BitVec 5) (s : State) : StepResult :=
  .next (s.writeResult dr (s.reg sr1 + sext imm5))

/-- `AND DR, SR1, SR2` (R132). -/
def execAndReg (dr sr1 sr2 : Reg) (s : State) : StepResult :=
  .next (s.writeResult dr (s.reg sr1 &&& s.reg sr2))

/-- `AND DR, SR1, #imm5` (R133). -/
def execAndImm (dr sr1 : Reg) (imm5 : BitVec 5) (s : State) : StepResult :=
  .next (s.writeResult dr (s.reg sr1 &&& sext imm5))

/-- `NOT DR, SR` (R134). -/
def execNot (dr sr : Reg) (s : State) : StepResult :=
  .next (s.writeResult dr (~~~ s.reg sr))

end Sys2Proof.Machine
end

