-- ==== Sys2Proof/Machine/Reserved.lean ====
section
/-! DEFINITION. RTI and RES: no-operations with a diagnostic (46_reserved.md). -/

namespace Sys2Proof.Machine

/-- `Diag(ReservedOpcode(instr, pc))` and nothing else (R192): the instruction word and the advanced pc. -/
def reserved (instr : Word) (s : State) : State := s.emitDiag (.reservedOpcode instr s.pc)

/-- `RTI` (R190). -/
def execRti (ignored : BitVec 12) (s : State) : StepResult :=
  .next (reserved (encode (.rti ignored)) s)

/-- `RES` (R191). -/
def execRes (ignored : BitVec 12) (s : State) : StepResult :=
  .next (reserved (encode (.res ignored)) s)

end Sys2Proof.Machine
end

