-- ==== Sys2Proof/Machine/Store.lean ====
section
/-! DEFINITION. ST, STI, STR (44_store.md). A store is plain everywhere, the device words included (R56). -/

namespace Sys2Proof.Machine

/-- `MemWrite(ea, 16, x[SR])` (R163). -/
def storeTo (sr : Reg) (ea : Word) (s : State) : StepResult :=
  .next (memWrite ea (s.reg sr) s)

/-- `ST SR, #PCoffset9` (R160). -/
def execSt (sr : Reg) (off : BitVec 9) (s : State) : StepResult :=
  storeTo sr (pcRel9 off s) s

/-- `STI SR, #PCoffset9` (R161): the pointer read goes through the intercept. -/
def execSti (sr : Reg) (off : BitVec 9) (s : State) : StepResult :=
  (memRead (pcRel9 off s) s).andThen fun ea t => storeTo sr ea t

/-- `STR SR, BaseR, #offset6` (R162). -/
def execStr (sr base : Reg) (off : BitVec 6) (s : State) : StepResult :=
  storeTo sr (baseOff base off s) s

end Sys2Proof.Machine
end

