-- ==== Sys2Proof/Machine/Trap.lean ====
section
/-! DEFINITION. TRAP and the six services (45_trap.md). TRAP links nothing, reads no table and writes no COND (R178).
A service that cannot finish at once leaves itself in `State.service`, and the next step goes on with it (R118, R119). -/

namespace Sys2Proof.Machine

/-- The service is over. -/
def State.serviceDone (s : State) : State := { s with service := none }

/-- The cycle stays inside this service. -/
def State.serviceAt (v : Service) (s : State) : State := { s with service := some v }

/-- `match Kbd.read() with` (R171, R174): with a key, `done`; on `Interrupt`, halt; with no key yet, the cycle is held
and nothing else changes (R119, R217). -/
def awaitKey (wait : Service) (done : Word → State → State) (s : State) : State :=
  match s.kbd.answer with
  | .key k => (done k s.afterCall).serviceDone
  | .noKey => s.afterCall.serviceAt wait
  | .interrupt => s.afterCall.halt .hostInterrupt

/-- GETC from its `Kbd.read()` on (R171): `x[0] <- k`, all 16 bits, no echo. -/
def getcRead (s : State) : State :=
  awaitKey .getc (fun k t => t.setReg .r0 k) s

/-- IN from its `Kbd.read()` on (R174): echo the low byte, then `x[0] <- k`. -/
def inRead (s : State) : State :=
  awaitKey .inKey (fun k t => (t.writeChars [k.lowByte]).setReg .r0 k) s

/-- The characters PUTS writes for one word: its low byte (R173). -/
def putsChars (w : Word) : List Byte := [w.lowByte]

/-- The characters PUTSP writes for one word: its low byte, then its high byte if that is not zero (R175). -/
def putspChars (w : Word) : List Byte :=
  if w.highByte = 0 then [w.lowByte] else [w.lowByte, w.highByte]

/-- The loop of PUTS and PUTSP (R173, R175): read the word at `a`; a zero word ends the string; else write its
characters and go on at `a + 1`. After `fuel` words without an end the service goes on in the next step. -/
def printString (chars : Word → List Byte) (more : Word → Service) : Nat → Word → State → State
  | 0, a, s => s.serviceAt (more a)
  | fuel + 1, a, s =>
    match memRead a s with
    | .stopped t => t
    | .value w t =>
      if w = 0x0000 then t.serviceDone
      else printString chars more fuel (a + 1) (t.writeChars (chars w))

/-- PUTS from the word at `a` on (R173). -/
def putsFrom (a : Word) (s : State) : State :=
  printString putsChars .puts Config.passLength a s

/-- PUTSP from the word at `a` on (R175). -/
def putspFrom (a : Word) (s : State) : State :=
  printString putspChars .putsp Config.passLength a s

/-- GETC (R171). -/
def serviceGetc (s : State) : State := getcRead s

/-- OUT (R172): the low byte of R0. -/
def serviceOut (s : State) : State := s.writeChars [(s.reg .r0).lowByte]

/-- PUTS (R173). -/
def servicePuts (s : State) : State := putsFrom (s.reg .r0) s

/-- IN (R174): the prompt, then the key. -/
def serviceIn (s : State) : State := inRead (s.writeChars Config.inPrompt)

/-- PUTSP (R175). -/
def servicePutsp (s : State) : State := putspFrom (s.reg .r0) s

/-- HALT (R176): nothing is printed (decision D24; assumption 8). -/
def serviceHalt (s : State) : State := s.halt .trapHalt

/-- One service. -/
def runTrap (name : TrapName) (s : State) : State :=
  match name with
  | .getc => serviceGetc s
  | .out => serviceOut s
  | .puts => servicePuts s
  | .inKey => serviceIn s
  | .putsp => servicePutsp s
  | .halt => serviceHalt s

/-- The trap dispatcher (R170): the service of the vector, else `raise UnknownTrapVector(v)` (R177). -/
def execTrap (v : Byte) (s : State) : StepResult :=
  match TrapName.ofVector v with
  | some name => .next (runTrap name s)
  | none => .next (s.raise (.unknownTrapVector v))

/-- `GETC` (R171). -/
def execGetc (s : State) : StepResult := .next (serviceGetc s)

/-- `OUT` (R172). -/
def execOut (s : State) : StepResult := .next (serviceOut s)

/-- `PUTS` (R173). -/
def execPuts (s : State) : StepResult := .next (servicePuts s)

/-- `IN` (R174). -/
def execIn (s : State) : StepResult := .next (serviceIn s)

/-- `PUTSP` (R175). -/
def execPutsp (s : State) : StepResult := .next (servicePutsp s)

/-- `HALT` (R176). -/
def execHalt (s : State) : StepResult := .next (serviceHalt s)

/-- Go on with an unfinished service: ask the keyboard again, or read on in the string (R118, R119). -/
def continueService (v : Service) (s : State) : State :=
  match v with
  | .getc => getcRead s
  | .inKey => inRead s
  | .puts a => putsFrom a s
  | .putsp a => putspFrom a s

end Sys2Proof.Machine
end

