-- ==== Sys2Proof/Machine/Cycle.lean ====
section
/-! DEFINITION. The fetch-decode-execute cycle and the run-state machine (40_instruction_cycle.md R111 to R121). -/

namespace Sys2Proof.Machine

/-- `pc <- pc + 1`, modulo 2^16 (R113). -/
def State.advancePc (s : State) : State := s.setPc (s.pc + 1)

/-- The cycle (R111): fetch with the ordinary `MemRead` at `pc` (R112), advance, decode, execute. Where the fetch
itself polls the keyboard (`pc = KBSR_ADDR`) and the host answers `Interrupt`, the machine is halted with `pc`
advanced (R121, R206; assumption 11). -/
def cycle (s : State) : StepResult :=
  match memRead s.pc s with
  | .value w t => exec (decode w) t.advancePc
  | .stopped t => .next t.advancePc

/-- A cycle boundary: a host interrupt due now is taken before the fetch (R206 case (a), R207); else one cycle
passes. -/
def boundary (s : State) : StepResult :=
  match s.hostStop with
  | some 0 => .next (s.halt .hostInterrupt)
  | some (n + 1) => cycle { s with hostStop := some n }
  | none => cycle s

/-- One step (R116): HALTED and FAULTED change nothing; RUNNING goes on with the service it is inside of, or starts a
cycle. -/
def stepOnce (s : State) : StepResult :=
  match s.run with
  | .halted _ => .next s
  | .faulted _ => .next s
  | .running =>
    match s.service with
    | some v => .next (continueService v s)
    | none => boundary s

/-- `s` about to fetch the word `w` at its pc: the word stored there, RUNNING, at a cycle boundary at which the host
does not ask for a stop. -/
def placeWord (w : Word) (s : State) : State :=
  { s with
    mem := s.mem.write s.pc w
    run := .running
    service := none
    hostStop := if s.hostStop = some 0 then none else s.hostStop }

end Sys2Proof.Machine
end

