-- ==== Sys2Proof/Machine/Step.lean ====
section
/-! DEFINITION. The step function, and how the host places one instruction before it. -/

namespace Sys2Proof.Machine

/-- One step of the machine (R111, R116, R121). -/
def step (s : State) : Host.Outcome State Fault Refusal := stepOnce s

/-- `s` with the instruction word `w` where the next step fetches it (assumption 12). Every instruction is one word
(R80), so only the low 16 bits of `w` are the instruction, whatever `nbits` is. A pc at `KBSR_ADDR` fetches the status
word, so no stored word is fetched there (R112). -/
def State.withFetchWord (s : State) (_nbits w : Nat) : State := placeWord (BitVec.ofNat 16 w) s

end Sys2Proof.Machine
end

