-- ==== Sys2Proof/Machine/Loader.lean ====
section
/-! DEFINITION. The load port: the big-endian image and the start-up sequence (20_memory.md R72,
70_reset_and_hazards.md R230 to R236). -/

namespace Sys2Proof.Machine

/-- A big-endian word: `b0 * 256 + b1` (R58, R72). -/
def bigEndian (b0 b1 : Byte) : Word := b0 ++ b1

/-- Store the complete 2-byte words at consecutive addresses from `a` on, modulo 2^16; a trailing byte is ignored
(R233, R235; assumption 10). -/
def loadWords : Word → List Byte → Memory → Memory
  | a, b0 :: b1 :: rest, m => loadWords (a + 1) rest (m.write a (bigEndian b0 b1))
  | _, [_], m => m
  | _, [], m => m

/-- The loader (R233): the origin, then the words. An image shorter than 2 bytes is `Truncated` (R234, decision D17;
assumption 10). -/
def load (image : List Byte) (m : Memory) : Except LoadError Memory :=
  match image with
  | b0 :: b1 :: rest => .ok (loadWords (bigEndian b0 b1) rest m)
  | [_] => .error .truncated
  | [] => .error .truncated

/-- The start-up sequence (R230): memory zeroed, the open parameters, the image, pc 0x3000, RUNNING, console empty. A
failed load is a failed launch: no machine state (R216, decision D28; assumption 19). -/
def launch (gpr : RegFile) (cond : Word) (kbd : Keyboard) (hostStop : Option Nat) (image : List Byte) :
    Except LoadError State :=
  match load image [] with
  | .ok m => .ok { State.resetWith gpr cond kbd hostStop with mem := m }
  | .error e => .error e

end Sys2Proof.Machine
end

