-- ==== Sys2Proof/Safety.lean ====
section
/-! DEFINITION. The terms claims are written in: what a successful and a faulted end are, the invariant, the frame
relations, and what the spec says each instruction may write (10_state.md R21 to R28, 20_memory.md R73). -/

namespace Sys2Proof.Instr

/-! ### What an instruction may write, from the spec's lists -/

/-- The seven flag-setting instructions: ADD, AND, NOT, LD, LDI, LDR, LEA (R27). -/
def setsCond : Instr → Bool
  | .br _ _ _ _ => false
  | .addReg _ _ _ => true
  | .addImm _ _ _ => true
  | .ld _ _ => true
  | .st _ _ => false
  | .jsr _ => false
  | .jsrr _ => false
  | .andReg _ _ _ => true
  | .andImm _ _ _ => true
  | .ldr _ _ _ => true
  | .str _ _ _ => false
  | .rti _ => false
  | .not _ _ => true
  | .ldi _ _ => true
  | .sti _ _ => false
  | .jmp _ => false
  | .res _ => false
  | .lea _ _ => true
  | .trap _ => false
  | .ret => false
  | .nop _ => false
  | .getc => false
  | .out => false
  | .puts => false
  | .inKey => false
  | .putsp => false
  | .halt => false

/-- The general registers an instruction may write: DR; R7 for JSR and JSRR; R0 for GETC and IN (R21, R22). -/
def destinations : Instr → List Reg
  | .br _ _ _ _ => []
  | .addReg dr _ _ => [dr]
  | .addImm dr _ _ => [dr]
  | .ld dr _ => [dr]
  | .st _ _ => []
  | .jsr _ => [.r7]
  | .jsrr _ => [.r7]
  | .andReg dr _ _ => [dr]
  | .andImm dr _ _ => [dr]
  | .ldr dr _ _ => [dr]
  | .str _ _ _ => []
  | .rti _ => []
  | .not dr _ => [dr]
  | .ldi dr _ => [dr]
  | .sti _ _ => []
  | .jmp _ => []
  | .res _ => []
  | .lea dr _ => [dr]
  | .trap v => if TrapName.ofVector v = some .getc ∨ TrapName.ofVector v = some .inKey then [.r0] else []
  | .ret => []
  | .nop _ => []
  | .getc => [.r0]
  | .out => []
  | .puts => []
  | .inKey => [.r0]
  | .putsp => []
  | .halt => []

/-- The instructions that may set `pc` to a target: BR, JMP, JSR, JSRR (R23). -/
def transfersControl : Instr → Bool
  | .br _ _ _ _ => true
  | .addReg _ _ _ => false
  | .addImm _ _ _ => false
  | .ld _ _ => false
  | .st _ _ => false
  | .jsr _ => true
  | .jsrr _ => true
  | .andReg _ _ _ => false
  | .andImm _ _ _ => false
  | .ldr _ _ _ => false
  | .str _ _ _ => false
  | .rti _ => false
  | .not _ _ => false
  | .ldi _ _ => false
  | .sti _ _ => false
  | .jmp _ => true
  | .res _ => false
  | .lea _ _ => false
  | .trap _ => false
  | .ret => true
  | .nop _ => false
  | .getc => false
  | .out => false
  | .puts => false
  | .inKey => false
  | .putsp => false
  | .halt => false

/-- The instructions that store: ST, STI, STR (R73). -/
def stores : Instr → Bool
  | .br _ _ _ _ => false
  | .addReg _ _ _ => false
  | .addImm _ _ _ => false
  | .ld _ _ => false
  | .st _ _ => true
  | .jsr _ => false
  | .jsrr _ => false
  | .andReg _ _ _ => false
  | .andImm _ _ _ => false
  | .ldr _ _ _ => false
  | .str _ _ _ => true
  | .rti _ => false
  | .not _ _ => false
  | .ldi _ _ => false
  | .sti _ _ => true
  | .jmp _ => false
  | .res _ => false
  | .lea _ _ => false
  | .trap _ => false
  | .ret => false
  | .nop _ => false
  | .getc => false
  | .out => false
  | .puts => false
  | .inKey => false
  | .putsp => false
  | .halt => false

/-- The instructions that write to the console: OUT, PUTS, IN, PUTSP (R181). -/
def prints : Instr → Bool
  | .br _ _ _ _ => false
  | .addReg _ _ _ => false
  | .addImm _ _ _ => false
  | .ld _ _ => false
  | .st _ _ => false
  | .jsr _ => false
  | .jsrr _ => false
  | .andReg _ _ _ => false
  | .andImm _ _ _ => false
  | .ldr _ _ _ => false
  | .str _ _ _ => false
  | .rti _ => false
  | .not _ _ => false
  | .ldi _ _ => false
  | .sti _ _ => false
  | .jmp _ => false
  | .res _ => false
  | .lea _ _ => false
  | .trap v => TrapName.ofVector v == some .out || TrapName.ofVector v == some .puts || TrapName.ofVector v == some .inKey ||
      TrapName.ofVector v == some .putsp
  | .ret => false
  | .nop _ => false
  | .getc => false
  | .out => true
  | .puts => true
  | .inKey => true
  | .putsp => true
  | .halt => false

end Sys2Proof.Instr

namespace Sys2Proof.Machine

/-! ### Ends of a run -/

/-- The only successful end: HALTED by the HALT service (R122). -/
def State.succeeded (s : State) : Prop := s.run = .halted .trapHalt

/-- A safe run never gets here: the terminal state of the one runtime fault (R203). -/
def State.hasFaulted (s : State) : Prop := ∃ r, s.run = .faulted r

/-! ### The invariant -/

/-- What every step keeps: memory in its canonical form, COND one of its three values (R25, R37), and a service in
progress only while RUNNING (R119). -/
def State.Inv (s : State) : Prop :=
  Memory.wf s.mem ∧ condLegal s.cond = true ∧ (s.service ≠ none → s.run = .running)

/-! ### Frames -/

/-- Every general register but those listed reads as before. -/
def SameRegsExcept (ds : List Reg) (s t : State) : Prop := ∀ r, r ∉ ds → t.reg r = s.reg r

/-- Every memory word but those listed reads as before. -/
def SameMemExcept (as : List Word) (s t : State) : Prop := ∀ a, a ∉ as → t.mem.read a = s.mem.read a

/-- The run state, the service in progress and every port are as before. -/
def SamePorts (s t : State) : Prop :=
  t.run = s.run ∧ t.service = s.service ∧ t.kbd = s.kbd ∧ t.hostStop = s.hostStop ∧
    t.console = s.console ∧ t.diag = s.diag

/-- The device words, which a read of the status word may write (R52). -/
def deviceWords : List Word := [Config.kbsrAddr, Config.kbdrAddr]

/-- The instruction that prints the string at R0: PUTSP where two characters are packed in a word, else PUTS. -/
def stringInstr (packed : Bool) : Instr := if packed then .putsp else .puts

/-- That instruction's service in progress, with `a` the next address it reads. -/
def stringService (packed : Bool) (a : Word) : Service := if packed then .putsp a else .puts a

/-- The characters one non-zero word of the string stands for: its low byte (R173), and where two are packed its high
byte if that is not zero (R175). -/
def stringChars (packed : Bool) (w : Word) : List Byte :=
  if packed = true ∧ w.extractLsb' 8 8 ≠ 0 then [w.extractLsb' 0 8, w.extractLsb' 8 8] else [w.extractLsb' 0 8]

/-- The bytes of a word in the image, most significant first (R72). -/
def wordBytes (w : Word) : List Byte := [w.highByte, w.lowByte]

end Sys2Proof.Machine
end

