-- ==== Sys2Proof/Certificates/Slice0/Obligations.lean ====
section
/-! DEFINITION. The statements for the provers. Each docstring names the rules of spec/ the statement formalises, and the
log entries of the clauses that are the model's choice. -/

open Sys2Proof Sys2Proof.Machine

/-! ### Encoding -/

/-- Decoding the word of a well-formed instruction gives it back, with every operand (R82, R83). -/
def Obligations.DecodeEncodeRoundTrip : Prop :=
  ∀ i : Instr, i.wellFormed = true → decode (encode i) = i

/-- Every word decodes to a well-formed instruction, is of the opcode-table row of that instruction, and is of exactly one
of the 19 rows that are no alias: that of the decoded instruction's core form (R86). The numbers are decisions D1, D4, D5
(assumptions 1, 3), and that no value of a bit no field covers is rejected is decision D6 (assumption 13). -/
def Obligations.DecodedWordIsOfItsTableRow : Prop :=
  coreRows.length = 19 ∧
  ∀ w : Word, (decode w).wellFormed = true ∧ (tableRow (decode w)).covers w = true ∧
    coreRows.filter (fun r => r.covers w) = [tableRow (decode w).core]

/-- The bits no field covers do not take part in decoding, and those of RTI and RES do not take part in execution but
for the diagnostic (R87, decision D6; assumption 13). Which bits NOT and TRAP leave uncovered rests on decisions D4 and D5
(assumption 3). -/
def Obligations.UncoveredBitsAreIgnored : Prop :=
  (∀ w x : Word, fieldOpcode w = Opcode.add.bits ∨ fieldOpcode w = Opcode.and.bits → fieldImmMode w = false →
    decode (w ^^^ (x &&& 0x0018)) = decode w) ∧
  (∀ w x : Word, fieldOpcode w = Opcode.not.bits → decode (w ^^^ (x &&& 0x003F)) = decode w) ∧
  (∀ w x : Word, fieldOpcode w = Opcode.jmp.bits → decode (w ^^^ (x &&& 0x0E3F)) = decode w) ∧
  (∀ w x : Word, fieldOpcode w = Opcode.jsr.bits → fieldJsrMode w = false →
    decode (w ^^^ (x &&& 0x063F)) = decode w) ∧
  (∀ w x : Word, fieldOpcode w = Opcode.trap.bits → decode (w ^^^ (x &&& 0x0F00)) = decode w) ∧
  (∀ (a b : BitVec 12) (s : State), ∃ d e, exec (.rti a) s = .next { s with diag := d } ∧
    exec (.rti b) s = .next { s with diag := e }) ∧
  (∀ (a b : BitVec 12) (s : State), ∃ d e, exec (.res a) s = .next { s with diag := d } ∧
    exec (.res b) s = .next { s with diag := e })

/-- Words written out from the spec's encodings decode to the instructions they stand for, one at least of each family
(R83, R85, and the words of 95_test_vectors.md). -/
def Obligations.WrittenOutWordsDecode : Prop :=
  decode 0b0000_010_000000011 = .br false true false 3 ∧
  decode 0b0001_000_001_0_00_010 = .addReg .r0 .r1 .r2 ∧
  decode 0b0001_000_001_1_00111 = .addImm .r0 .r1 7 ∧
  decode 0b0101_011_100_0_00_101 = .andReg .r3 .r4 .r5 ∧
  decode 0b0101_001_010_1_11111 = .andImm .r1 .r2 0x1F ∧
  decode 0b1001_010_011_111111 = .not .r2 .r3 ∧
  decode 0b0010_001_000000010 = .ld .r1 2 ∧
  decode 0b1010_000_000000001 = .ldi .r0 1 ∧
  decode 0b0110_100_101_111111 = .ldr .r4 .r5 0x3F ∧
  decode 0b1110_000_000000010 = .lea .r0 2 ∧
  decode 0b0011_011_000000101 = .st .r3 5 ∧
  decode 0b1011_010_000000100 = .sti .r2 4 ∧
  decode 0b0111_001_110_111110 = .str .r1 .r6 0x3E ∧
  decode 0b1100_000_011_000000 = .jmp .r3 ∧
  decode 0b1100_000_111_000000 = .ret ∧
  decode 0b0100_1_00000000101 = .jsr 5 ∧
  decode 0b0100_0_00_010_000000 = .jsrr .r2 ∧
  decode 0b1111_0000_00100101 = .halt ∧
  decode 0b1111_0000_11111111 = .trap 0xFF ∧
  decode 0b1000_000000000000 = .rti 0 ∧
  decode 0b1101_000100100011 = .res 0x123

/-- An alias runs exactly as the instruction its row is another name of: `RET` as `JMP R7`, `NOP` as `BR` with mask 000,
the services as their `TRAP` (R92, R142, R170). -/
def Obligations.AliasRunsAsItsCoreForm : Prop :=
  ∀ (i : Instr) (s : State), exec i s = exec i.core s

/-! ### Registers, flags, the ALU -/

/-- The register-file contract: index 0 to 7 is a general register, 8 PC, 9 COND, and any other index fails with
`InvalidRegister` (R29, R204). -/
def Obligations.RegisterFileContract : Prop :=
  ∀ (s : State) (v : Word) (k : Nat),
    (∀ b : BitVec 3, s.entryGet b.toNat = .ok (s.reg (.ofBits b)) ∧
      s.entrySet b.toNat v = .ok (s.setReg (.ofBits b) v)) ∧
    s.entryGet 8 = .ok s.pc ∧ s.entrySet 8 v = .ok { s with pc := v } ∧
    s.entryGet 9 = .ok s.cond ∧ s.entrySet 9 v = .ok { s with cond := v } ∧
    (9 < k → s.entryGet k = .error (.invalidRegister k) ∧ s.entrySet k v = .error (.invalidRegister k))

/-- The flag calculator: ZERO iff the value is 0, NEGATIVE iff bit 15 is set, POSITIVE otherwise, and the three are
different values; `setcc` writes it to COND; and every flag-setting instruction leaves in COND the flag of the value it
left in DR, unless the host halted it at a poll (R26; the exception is decision D13, assumption 7). -/
def Obligations.FlagCalculatorPartition : Prop :=
  (∀ v : Word, (flags v = Config.condZero ↔ v = 0) ∧
    (flags v = Config.condNegative ↔ v.getLsbD 15 = true) ∧
    (flags v = Config.condPositive ↔ v ≠ 0 ∧ v.getLsbD 15 = false)) ∧
  Config.condZero ≠ Config.condNegative ∧ Config.condZero ≠ Config.condPositive ∧
  Config.condNegative ≠ Config.condPositive ∧
  (∀ (v : Word) (s : State), s.setcc v = { s with cond := flags v }) ∧
  ∀ (i : Instr) (dr : Reg) (s t : State), i.setsCond = true → i.destinations = [dr] → exec i s = .next t →
    s.run = .running → t.run = .running → t.cond = flags (t.reg dr)

/-- Sign extension `sext_N` of a field of any width N from 1 to 16: the formula of R9, and the field's two's-complement
value. -/
def Obligations.SignExtensionIsTwosComplement : Prop :=
  ∀ (n : Nat) (f : BitVec n), 0 < n → n ≤ 16 →
    (sext f).toNat = (if f.toNat < 2 ^ (n - 1) then f.toNat else f.toNat + 65536 - 2 ^ n) ∧
    (sext f).toInt = f.toInt

/-- ADD, both modes: how the word selects them, and the sum modulo 2^16 in DR with COND from it; nothing else changes
(R130, R131). That bits 4:3 of register mode are ignored is decision D6 (assumption 13), and that a DR equal to a source
gets the sum of the old values is decision D25 (assumption 20): both the model's reading. -/
def Obligations.AddWritesTheSum : Prop :=
  (∀ w : Word, fieldOpcode w = Opcode.add.bits → w.getLsbD 5 = false →
    decode w = .addReg (.ofBits (w.extractLsb' 9 3)) (.ofBits (w.extractLsb' 6 3)) (.ofBits (w.extractLsb' 0 3))) ∧
  (∀ w : Word, fieldOpcode w = Opcode.add.bits → w.getLsbD 5 = true →
    decode w = .addImm (.ofBits (w.extractLsb' 9 3)) (.ofBits (w.extractLsb' 6 3)) (w.extractLsb' 0 5)) ∧
  (∀ (dr sr1 sr2 : Reg) (s : State), exec (.addReg dr sr1 sr2) s =
    .next { s with regs := s.regs.set dr (s.reg sr1 + s.reg sr2), cond := flags (s.reg sr1 + s.reg sr2) }) ∧
  (∀ (dr sr1 : Reg) (imm5 : BitVec 5) (s : State), exec (.addImm dr sr1 imm5) s =
    .next { s with regs := s.regs.set dr (s.reg sr1 + imm5.signExtend 16),
                   cond := flags (s.reg sr1 + imm5.signExtend 16) })

/-- AND, both modes: how the word selects them, and the bitwise and in DR with COND from it; nothing else changes (R132,
R133). That bits 4:3 of register mode are ignored is decision D6 (assumption 13), and that a DR equal to a source gets
the and of the old values is decision D25 (assumption 20): both the model's reading. -/
def Obligations.AndWritesTheConjunction : Prop :=
  (∀ w : Word, fieldOpcode w = Opcode.and.bits → w.getLsbD 5 = false →
    decode w = .andReg (.ofBits (w.extractLsb' 9 3)) (.ofBits (w.extractLsb' 6 3)) (.ofBits (w.extractLsb' 0 3))) ∧
  (∀ w : Word, fieldOpcode w = Opcode.and.bits → w.getLsbD 5 = true →
    decode w = .andImm (.ofBits (w.extractLsb' 9 3)) (.ofBits (w.extractLsb' 6 3)) (w.extractLsb' 0 5)) ∧
  (∀ (dr sr1 sr2 : Reg) (s : State), exec (.andReg dr sr1 sr2) s =
    .next { s with regs := s.regs.set dr (s.reg sr1 &&& s.reg sr2), cond := flags (s.reg sr1 &&& s.reg sr2) }) ∧
  (∀ (dr sr1 : Reg) (imm5 : BitVec 5) (s : State), exec (.andImm dr sr1 imm5) s =
    .next { s with regs := s.regs.set dr (s.reg sr1 &&& imm5.signExtend 16),
                   cond := flags (s.reg sr1 &&& imm5.signExtend 16) })

/-- NOT: the complement of SR, 0xFFFF - SR, in DR with COND from it; nothing else changes (R134). That SR is
`instr[8:6]` is decision D4 (assumption 3), that bits 5:0 are ignored decision D6 (assumption 13), and that a DR equal to
SR gets the complement of the old value decision D25 (assumption 20): the model's reading. -/
def Obligations.NotWritesTheComplement : Prop :=
  (∀ w : Word, fieldOpcode w = Opcode.not.bits →
    decode w = .not (.ofBits (w.extractLsb' 9 3)) (.ofBits (w.extractLsb' 6 3))) ∧
  (∀ (dr sr : Reg) (s : State), exec (.not dr sr) s =
    .next { s with regs := s.regs.set dr (0xFFFF - s.reg sr), cond := flags (0xFFFF - s.reg sr) })

/-! ### Control transfer -/

/-- A word of BR's opcode is NOP of its low 9 bits where its mask, bits 11:9, is 000, and else BR with n, z and p from
bits 11, 10 and 9 (R82, R140; NOP is this spec's own name, R92). BR goes to the incremented pc plus the sign-extended
offset exactly if a mask bit tests the flag COND holds: n NEGATIVE, z ZERO, p POSITIVE. NOP is never taken. Nothing but
pc changes (R140; the order of the mask bits and their pairing with the flags are decision D3, assumption 3). -/
def Obligations.BranchTestsTheFlag : Prop :=
  (∀ w : Word, fieldOpcode w = Opcode.br.bits →
    decode w = if w.extractLsb' 9 3 = 0 then .nop (w.extractLsb' 0 9)
      else .br (w.getLsbD 11) (w.getLsbD 10) (w.getLsbD 9) (w.extractLsb' 0 9)) ∧
  (∀ (n z p : Bool) (off : BitVec 9) (s : State), condLegal s.cond = true →
    exec (.br n z p off) s = .next { s with
      pc := if (n = true ∧ s.cond = Config.condNegative) ∨ (z = true ∧ s.cond = Config.condZero) ∨
          (p = true ∧ s.cond = Config.condPositive) then s.pc + off.signExtend 16 else s.pc }) ∧
  (∀ (off : BitVec 9) (s : State), exec (.nop off) s = .next s)

/-- Whether BR is taken is `(mask AND cond) ≠ 0` for any 16-bit COND, and bits 15 to 3 of COND never influence it
(R140). -/
def Obligations.BranchIgnoresHighCondBits : Prop :=
  ∀ (n z p : Bool) (off : BitVec 9) (s : State) (c : Word), c &&& 0x0007 = s.cond &&& 0x0007 →
    ∃ pc, exec (.br n z p off) s = .next { s with pc := pc } ∧
      exec (.br n z p off) { s with cond := c } = .next { s with cond := c, pc := pc } ∧
      (pc = if (BitVec.ofBool n ++ BitVec.ofBool z ++ BitVec.ofBool p : BitVec 3) &&& s.cond.extractLsb' 0 3 = 0
        then s.pc else s.pc + off.signExtend 16)

/-- JMP goes to the content of the base register, RET to that of R7; no register is written (R141, R142). That bits 11:9
and 5:0 of the word are ignored is decision D6 (assumption 13), the model's reading. -/
def Obligations.JumpGoesToTheRegister : Prop :=
  (∀ w : Word, fieldOpcode w = Opcode.jmp.bits →
    decode w = if Reg.ofBits (w.extractLsb' 6 3) = .r7 then .ret else .jmp (.ofBits (w.extractLsb' 6 3))) ∧
  (∀ (base : Reg) (s : State), exec (.jmp base) s = .next { s with pc := s.reg base }) ∧
  (∀ s : State, exec .ret s = .next { s with pc := s.reg .r7 })

/-- JSR writes the return address to R7 and goes to the incremented pc plus the sign-extended 11-bit offset (R143). -/
def Obligations.JsrLinksAndJumps : Prop :=
  (∀ w : Word, fieldOpcode w = Opcode.jsr.bits → w.getLsbD 11 = true → decode w = .jsr (w.extractLsb' 0 11)) ∧
  (∀ (off : BitVec 11) (s : State), exec (.jsr off) s =
    .next { s with regs := s.regs.set .r7 s.pc, pc := s.pc + off.signExtend 16 })

/-- JSRR writes the return address to R7 and goes to the base register, which for R7 is that same address (R144).
That order is decision D16 (assumption 9), and that bits 10:9 and 5:0 of the word are ignored decision D6 (assumption
13): both the model's reading. -/
def Obligations.JsrrLinksThenReadsTheBase : Prop :=
  (∀ w : Word, fieldOpcode w = Opcode.jsr.bits → w.getLsbD 11 = false →
    decode w = .jsrr (.ofBits (w.extractLsb' 6 3))) ∧
  (∀ (base : Reg) (s : State), exec (.jsrr base) s =
    .next { s with regs := s.regs.set .r7 s.pc, pc := if base = .r7 then s.pc else s.reg base })

/-- A subroutine that leaves R7 alone returns to the instruction after its call: after JSR or JSRR, RET from any state
with that R7 goes to the incremented pc of the call (R22, R142, R143, R146). -/
def Obligations.CallThenReturnComesBack : Prop :=
  ∀ (i : Instr) (s t u : State), ((∃ off, i = .jsr off) ∨ ∃ base, i = .jsrr base) →
    exec i s = .next t → u.reg .r7 = t.reg .r7 → exec .ret u = .next { u with pc := s.pc }

/-! ### Memory and its two primitives -/

/-- `MemWrite`: the word written is read back, every other word reads as before, and nothing else changes: the device
words included, and no port is called (R53). -/
def Obligations.WriteIsAPlainStore : Prop :=
  ∀ (a v b : Word) (s : State), Memory.wf s.mem →
    ∃ m, memWrite a v s = { s with mem := m } ∧ m.read b = if b = a then v else s.mem.read b

/-- A read of any address but the status word returns the array's word and has no effect, so that a second read gives the
same: `KBDR_ADDR` too, where it does not poll. Writing the same word twice is writing it once. A read of the status word
may give another word the next time (R61). -/
def Obligations.OrdinaryReadHasNoEffect : Prop :=
  (∀ (a : Word) (s : State), a ≠ Config.kbsrAddr → memRead a s = .value (s.mem.read a) s) ∧
  (∀ s : State, memRead Config.kbdrAddr s = .value (s.mem.read Config.kbdrAddr) s) ∧
  (∀ (a v : Word) (s : State), Memory.wf s.mem → memWrite a v (memWrite a v s) = memWrite a v s) ∧
  ∃ (s t u : State) (v w : Word), memRead Config.kbsrAddr s = .value v t ∧ memRead Config.kbsrAddr t = .value w u ∧
    v ≠ w ∧ t.mem ≠ s.mem

/-- A read of the status word polls: with a key it gives 0x8000, with none 0x0000; the status word takes that value, the
data word the key (and stays without one), every other word stays, and one answer is used. On `Interrupt` the machine
is HALTED(HostInterrupt) and neither word is written (R52, R54; the last clause is decision D13, assumption 7, and that the data word keeps all 16
bits of the key decision D11, assumption 8). -/
def Obligations.StatusReadPollsTheKeyboard : Prop :=
  ∀ s : State, Memory.wf s.mem →
    (∀ k, s.kbd.answer = .key k → ∃ m,
      memRead Config.kbsrAddr s = .value 0x8000 { s with mem := m, kbd := s.kbd.advance } ∧
      m.read Config.kbsrAddr = 0x8000 ∧ m.read Config.kbdrAddr = k ∧
      ∀ a, a ∉ deviceWords → m.read a = s.mem.read a) ∧
    (s.kbd.answer = .noKey → ∃ m,
      memRead Config.kbsrAddr s = .value 0x0000 { s with mem := m, kbd := s.kbd.advance } ∧
      m.read Config.kbsrAddr = 0x0000 ∧ ∀ a, a ≠ Config.kbsrAddr → m.read a = s.mem.read a) ∧
    (s.kbd.answer = .interrupt → memRead Config.kbsrAddr s =
      .stopped { s with kbd := s.kbd.advance, run := .halted .hostInterrupt, service := none })

/-! ### Loads -/

/-- LD, LDR and LDI: how the word gives them, and that they load through `MemRead`, LDI reading its pointer first and then
the word there: DR is the word read, COND its flag, and nothing else changes beyond what the reads did (R150, R151,
R152). -/
def Obligations.LoadsReadThroughMemRead : Prop :=
  (∀ w : Word, fieldOpcode w = Opcode.ld.bits →
    decode w = .ld (.ofBits (w.extractLsb' 9 3)) (w.extractLsb' 0 9)) ∧
  (∀ w : Word, fieldOpcode w = Opcode.ldr.bits →
    decode w = .ldr (.ofBits (w.extractLsb' 9 3)) (.ofBits (w.extractLsb' 6 3)) (w.extractLsb' 0 6)) ∧
  (∀ w : Word, fieldOpcode w = Opcode.ldi.bits →
    decode w = .ldi (.ofBits (w.extractLsb' 9 3)) (w.extractLsb' 0 9)) ∧
  (∀ (dr : Reg) (off : BitVec 9) (s t : State) (v : Word), memRead (s.pc + off.signExtend 16) s = .value v t →
    exec (.ld dr off) s = .next { t with regs := s.regs.set dr v, cond := flags v }) ∧
  (∀ (dr base : Reg) (off : BitVec 6) (s t : State) (v : Word),
    memRead (s.reg base + off.signExtend 16) s = .value v t →
    exec (.ldr dr base off) s = .next { t with regs := s.regs.set dr v, cond := flags v }) ∧
  (∀ (dr : Reg) (off : BitVec 9) (s t u : State) (ea v : Word),
    memRead (s.pc + off.signExtend 16) s = .value ea t → memRead ea t = .value v u →
    exec (.ldi dr off) s = .next { u with regs := s.regs.set dr v, cond := flags v })

/-- LEA: the incremented pc plus the sign-extended offset in DR, with COND from it; no memory access (R153). -/
def Obligations.LeaWritesTheAddress : Prop :=
  (∀ w : Word, fieldOpcode w = Opcode.lea.bits →
    decode w = .lea (.ofBits (w.extractLsb' 9 3)) (w.extractLsb' 0 9)) ∧
  (∀ (dr : Reg) (off : BitVec 9) (s : State), exec (.lea dr off) s =
    .next { s with regs := s.regs.set dr (s.pc + off.signExtend 16), cond := flags (s.pc + off.signExtend 16) })

/-- LD, LDR and LDI from addresses other than the status word: the word there in DR, COND from it, nothing else changed
(R150, R151, R152). -/
def Obligations.LoadsFromOrdinaryWords : Prop :=
  (∀ (dr : Reg) (off : BitVec 9) (s : State), s.pc + off.signExtend 16 ≠ Config.kbsrAddr →
    exec (.ld dr off) s = .next { s with
      regs := s.regs.set dr (s.mem.read (s.pc + off.signExtend 16)),
      cond := flags (s.mem.read (s.pc + off.signExtend 16)) }) ∧
  (∀ (dr base : Reg) (off : BitVec 6) (s : State), s.reg base + off.signExtend 16 ≠ Config.kbsrAddr →
    exec (.ldr dr base off) s = .next { s with
      regs := s.regs.set dr (s.mem.read (s.reg base + off.signExtend 16)),
      cond := flags (s.mem.read (s.reg base + off.signExtend 16)) }) ∧
  (∀ (dr : Reg) (off : BitVec 9) (s : State), s.pc + off.signExtend 16 ≠ Config.kbsrAddr →
    s.mem.read (s.pc + off.signExtend 16) ≠ Config.kbsrAddr →
    exec (.ldi dr off) s = .next { s with
      regs := s.regs.set dr (s.mem.read (s.mem.read (s.pc + off.signExtend 16))),
      cond := flags (s.mem.read (s.mem.read (s.pc + off.signExtend 16))) })

/-- A load whose address, or for LDI whose pointer's content, is the status word polls the keyboard: a key gives 0x8000
and NEGATIVE, none 0x0000 and ZERO, with every register but DR, pc and every word but the device words as before; on
`Interrupt` the machine is HALTED(HostInterrupt) with DR, COND and memory as before. An LDI whose pointer word is the
status word polls, and loads from address 0x8000 or 0x0000 as the status says (R52, R150 to R152, R154). The `Interrupt` clauses are decision
D13 (assumption 7), and the 16 bits of the key in the data word decision D11 (assumption 8). The last part rests on the
device addresses being neither 0x8000 nor 0x0000, decision D2 (assumption 2, PRESUMED): the model's choice. -/
def Obligations.LoadsFromTheStatusWordPoll : Prop :=
  (∀ (i : Instr) (dr : Reg) (s : State), Memory.wf s.mem →
    ((∃ off, i = .ld dr off ∧ s.pc + off.signExtend 16 = Config.kbsrAddr) ∨
      (∃ base off, i = .ldr dr base off ∧ s.reg base + off.signExtend 16 = Config.kbsrAddr) ∨
      (∃ off, i = .ldi dr off ∧ s.pc + off.signExtend 16 ≠ Config.kbsrAddr ∧
        s.mem.read (s.pc + off.signExtend 16) = Config.kbsrAddr)) →
    (∀ k, s.kbd.answer = .key k → ∃ t, exec i s = .next t ∧ t.reg dr = 0x8000 ∧ t.cond = Config.condNegative ∧
      t.mem.read Config.kbsrAddr = 0x8000 ∧ t.mem.read Config.kbdrAddr = k ∧
      t.pc = s.pc ∧ t.run = s.run ∧ SameRegsExcept [dr] s t ∧ SameMemExcept deviceWords s t) ∧
    (s.kbd.answer = .noKey → ∃ t, exec i s = .next t ∧ t.reg dr = 0x0000 ∧ t.cond = Config.condZero ∧
      t.mem.read Config.kbsrAddr = 0x0000 ∧
      t.pc = s.pc ∧ t.run = s.run ∧ SameRegsExcept [dr] s t ∧ SameMemExcept [Config.kbsrAddr] s t) ∧
    (s.kbd.answer = .interrupt →
      exec i s = .next { s with kbd := s.kbd.advance, run := .halted .hostInterrupt, service := none })) ∧
  ∀ (dr : Reg) (off : BitVec 9) (s : State), Memory.wf s.mem → s.pc + off.signExtend 16 = Config.kbsrAddr →
    (∀ k, s.kbd.answer = .key k → ∃ t, exec (.ldi dr off) s = .next t ∧ t.reg dr = s.mem.read 0x8000 ∧
      t.cond = flags (s.mem.read 0x8000) ∧ t.mem.read Config.kbsrAddr = 0x8000 ∧ t.mem.read Config.kbdrAddr = k ∧
      t.pc = s.pc ∧ t.run = s.run ∧ SameRegsExcept [dr] s t ∧ SameMemExcept deviceWords s t) ∧
    (s.kbd.answer = .noKey → ∃ t, exec (.ldi dr off) s = .next t ∧ t.reg dr = s.mem.read 0x0000 ∧
      t.cond = flags (s.mem.read 0x0000) ∧ t.mem.read Config.kbsrAddr = 0x0000 ∧
      t.pc = s.pc ∧ t.run = s.run ∧ SameRegsExcept [dr] s t ∧ SameMemExcept [Config.kbsrAddr] s t) ∧
    (s.kbd.answer = .interrupt → exec (.ldi dr off) s =
      .next { s with kbd := s.kbd.advance, run := .halted .hostInterrupt, service := none })

/-! ### Stores -/

/-- ST, STR and STI with an ordinary pointer: how the word gives them, that they complete, the stored word reads as SR,
every other word as before (the device words too: a store to one is plain), and nothing else changes (R56, R160, R161,
R162; STI with the status word as its pointer is the next statement). -/
def Obligations.StoresChangeOneWord : Prop :=
  (∀ w : Word, fieldOpcode w = Opcode.st.bits →
    decode w = .st (.ofBits (w.extractLsb' 9 3)) (w.extractLsb' 0 9)) ∧
  (∀ w : Word, fieldOpcode w = Opcode.str.bits →
    decode w = .str (.ofBits (w.extractLsb' 9 3)) (.ofBits (w.extractLsb' 6 3)) (w.extractLsb' 0 6)) ∧
  (∀ w : Word, fieldOpcode w = Opcode.sti.bits →
    decode w = .sti (.ofBits (w.extractLsb' 9 3)) (w.extractLsb' 0 9)) ∧
  ∀ (i : Instr) (sr : Reg) (ea : Word) (s : State), Memory.wf s.mem →
    ((∃ off, i = .st sr off ∧ ea = s.pc + off.signExtend 16) ∨
      (∃ base off, i = .str sr base off ∧ ea = s.reg base + off.signExtend 16) ∨
      (∃ off, i = .sti sr off ∧ s.pc + off.signExtend 16 ≠ Config.kbsrAddr ∧
        ea = s.mem.read (s.pc + off.signExtend 16))) →
    ∃ m, exec i s = .next { s with mem := m } ∧ m.read ea = s.reg sr ∧ ∀ a, a ≠ ea → m.read a = s.mem.read a

/-- STI whose pointer is the status word polls, and stores at 0x8000 or 0x0000 as the status says; on `Interrupt` the
write is not made (R161, R163). The last clause is decision D13 (assumption 7), and the 16 bits of the key in the data word
decision D11 (assumption 8). That the device words and the stored word keep apart rests on the device addresses being
neither 0x8000 nor 0x0000, decision D2 (assumption 2, PRESUMED): the model's choice. -/
def Obligations.StiThroughTheStatusWord : Prop :=
  ∀ (sr : Reg) (off : BitVec 9) (s : State), Memory.wf s.mem → s.pc + off.signExtend 16 = Config.kbsrAddr →
    (∀ k, s.kbd.answer = .key k → ∃ t, exec (.sti sr off) s = .next t ∧ t.mem.read 0x8000 = s.reg sr ∧
      t.mem.read Config.kbsrAddr = 0x8000 ∧ t.mem.read Config.kbdrAddr = k ∧ t.regs = s.regs ∧ t.pc = s.pc ∧
      t.cond = s.cond ∧ t.run = s.run ∧ SameMemExcept (0x8000 :: deviceWords) s t) ∧
    (s.kbd.answer = .noKey → ∃ t, exec (.sti sr off) s = .next t ∧ t.mem.read 0x0000 = s.reg sr ∧
      t.mem.read Config.kbsrAddr = 0x0000 ∧ t.regs = s.regs ∧ t.pc = s.pc ∧
      t.cond = s.cond ∧ t.run = s.run ∧ SameMemExcept [0x0000, Config.kbsrAddr] s t) ∧
    (s.kbd.answer = .interrupt → exec (.sti sr off) s =
      .next { s with kbd := s.kbd.advance, run := .halted .hostInterrupt, service := none })

/-- A stored word is what the next fetch of its address reads, with nothing in between (R68, R239). -/
def Obligations.StoredWordIsFetchedNext : Prop :=
  ∀ (i : Instr) (sr : Reg) (s t : State), Memory.wf s.mem →
    ((∃ off, i = .st sr off ∧ s.pc = s.pc + off.signExtend 16) ∨
      (∃ base off, i = .str sr base off ∧ s.pc = s.reg base + off.signExtend 16)) →
    s.pc ≠ Config.kbsrAddr → exec i s = .next t →
    memRead t.pc t = .value (s.reg sr) t

/-! ### TRAP and the services -/

/-- GETC with a key: R0 is the whole key code, one answer is used, and nothing else changes; with `Interrupt` the machine
is HALTED(HostInterrupt) and R0 stays (R171; decisions D11 and D13, assumption 7). -/
def Obligations.GetcReadsOneKey : Prop :=
  ∀ s : State,
    (∀ k, s.kbd.answer = .key k → exec .getc s =
      .next { s with regs := s.regs.set .r0 k, kbd := s.kbd.advance, service := none }) ∧
    (s.kbd.answer = .interrupt → exec .getc s =
      .next { s with kbd := s.kbd.advance, run := .halted .hostInterrupt, service := none })

/-- IN: the prompt, whatever it is, then with a key its low byte on the console and the whole code in R0; with
`Interrupt` the prompt stays written and R0 stays (R174; decisions D11, D12, D13, D27, assumptions 6, 7, 8). -/
def Obligations.InPromptsReadsAndEchoes : Prop :=
  ∀ s : State,
    (∀ k : Word, s.kbd.answer = .key k → exec .inKey s = .next { s with
      regs := s.regs.set .r0 k, kbd := s.kbd.advance, service := none,
      console := s.console ++ Config.inPrompt ++ [k.extractLsb' 0 8] }) ∧
    (s.kbd.answer = .interrupt → exec .inKey s = .next { s with
      kbd := s.kbd.advance, run := .halted .hostInterrupt, service := none,
      console := s.console ++ Config.inPrompt })

/-- The other five services' words, and OUT: it writes one byte, the low byte of R0, and changes nothing else (R170,
R172). That the vector is `instr[7:0]` is decision D5 (assumption 3), and that bits 11 to 8 are ignored decisions D5 and
D6 (assumption 13): the model's reading. -/
def Obligations.OutWritesTheLowByte : Prop :=
  (∀ w : Word, fieldOpcode w = Opcode.trap.bits →
    (w.extractLsb' 0 8 = 0x20 → decode w = .getc) ∧ (w.extractLsb' 0 8 = 0x21 → decode w = .out) ∧
    (w.extractLsb' 0 8 = 0x22 → decode w = .puts) ∧ (w.extractLsb' 0 8 = 0x23 → decode w = .inKey) ∧
    (w.extractLsb' 0 8 = 0x24 → decode w = .putsp)) ∧
  ∀ s : State, exec .out s = .next { s with console := s.console ++ [(s.reg .r0).extractLsb' 0 8] }

/-- PUTS on a string of non-zero words ended by a zero word, none of them the status word: the low byte of each word, in
order, the terminator not printed, and nothing else changes; R0 keeps the address and the address wraps (R173; that the
reads are `MemRead` is decision D15, assumption 14). -/
def Obligations.PutsPrintsTheString : Prop :=
  ∀ (s : State) (ws : List Word), ws.length < 65536 →
    (∀ (j : Nat) (w : Word), ws[j]? = some w →
      w ≠ 0 ∧ s.reg .r0 + BitVec.ofNat 16 j ≠ Config.kbsrAddr ∧ s.mem.read (s.reg .r0 + BitVec.ofNat 16 j) = w) →
    s.reg .r0 + BitVec.ofNat 16 ws.length ≠ Config.kbsrAddr →
    s.mem.read (s.reg .r0 + BitVec.ofNat 16 ws.length) = 0 →
    exec .puts s = .next { s with service := none, console := s.console ++ ws.map (fun w => w.extractLsb' 0 8) }

/-- PUTSP on such a string: the low byte of each word, then its high byte if that is not zero (R175; decision D15,
assumption 14). -/
def Obligations.PutspPrintsThePackedString : Prop :=
  ∀ (s : State) (ws : List Word), ws.length < 65536 →
    (∀ (j : Nat) (w : Word), ws[j]? = some w →
      w ≠ 0 ∧ s.reg .r0 + BitVec.ofNat 16 j ≠ Config.kbsrAddr ∧ s.mem.read (s.reg .r0 + BitVec.ofNat 16 j) = w) →
    s.reg .r0 + BitVec.ofNat 16 ws.length ≠ Config.kbsrAddr →
    s.mem.read (s.reg .r0 + BitVec.ofNat 16 ws.length) = 0 →
    exec .putsp s = .next { s with service := none, console := s.console ++ ws.flatMap (fun w =>
      if w.extractLsb' 8 8 = 0 then [w.extractLsb' 0 8] else [w.extractLsb' 0 8, w.extractLsb' 8 8]) }

/-- PUTS and PUTSP, begun by `exec` at R0 or gone on with by `step` where a service in progress reads on from `a`,
whatever the host interrupt port says. `ws` are the non-zero words from `a` on, none of them the status word. If a zero
word follows, the service ends with their characters printed. If the status word follows, its read polls: on `Interrupt`
the machine is HALTED(HostInterrupt) and with no key the service ends, with those characters printed in both; with a key
the characters of the word 0x8000 and of the words `vs` after it follow, up to a zero word. If a whole pass over memory
has no zero word, the service is in progress at `a` again with the characters of the pass printed, and so never ends
(R118, R119, R173, R175). The reads being `MemRead` is decision D15 (assumption 14), the halt decision D13 (assumption
7), the 16 bits of the key in the data word decision D11 (assumption 8), and the pass a step takes the model's form
(assumption 17). -/
def Obligations.StepGoesOnWithTheString : Prop :=
  ∀ (packed : Bool) (a : Word) (s : State) (o : StepResult) (ws : List Word), Memory.wf s.mem →
    (s.reg .r0 = a ∧ o = exec (stringInstr packed) s) ∨
      (s.run = .running ∧ s.service = some (stringService packed a) ∧ o = step s) →
    ws.length < 65536 →
    (∀ (j : Nat) (w : Word), ws[j]? = some w →
      w ≠ 0 ∧ a + BitVec.ofNat 16 j ≠ Config.kbsrAddr ∧ s.mem.read (a + BitVec.ofNat 16 j) = w) →
    (a + BitVec.ofNat 16 ws.length ≠ Config.kbsrAddr → s.mem.read (a + BitVec.ofNat 16 ws.length) = 0 →
      o = .next { s with service := none, console := s.console ++ ws.flatMap (stringChars packed) }) ∧
    (a + BitVec.ofNat 16 ws.length = Config.kbsrAddr →
      (s.kbd.answer = .interrupt → o = .next { s with
        kbd := s.kbd.advance, run := .halted .hostInterrupt, service := none,
        console := s.console ++ ws.flatMap (stringChars packed) }) ∧
      (s.kbd.answer = .noKey → ∃ m, SameMemExcept [Config.kbsrAddr] s { s with mem := m } ∧
        m.read Config.kbsrAddr = 0x0000 ∧
        o = .next { s with mem := m, kbd := s.kbd.advance, service := none,
                           console := s.console ++ ws.flatMap (stringChars packed) }) ∧
      (∀ k, s.kbd.answer = .key k → ∃ m, SameMemExcept deviceWords s { s with mem := m } ∧
        m.read Config.kbsrAddr = 0x8000 ∧ m.read Config.kbdrAddr = k ∧
        ∀ vs : List Word,
          (∀ (j : Nat) (w : Word), vs[j]? = some w →
            w ≠ 0 ∧ m.read (Config.kbsrAddr + 1 + BitVec.ofNat 16 j) = w) →
          (ws.length + 1 + vs.length < 65536 →
            m.read (Config.kbsrAddr + 1 + BitVec.ofNat 16 vs.length) = 0 →
            o = .next { s with mem := m, kbd := s.kbd.advance, service := none,
                               console := s.console ++ (ws ++ 0x8000 :: vs).flatMap (stringChars packed) }) ∧
          (ws.length + 1 + vs.length = 65536 →
            o = .next { s with mem := m, kbd := s.kbd.advance, service := some (stringService packed a),
                               console := s.console ++ (ws ++ 0x8000 :: vs).flatMap (stringChars packed) })))

/-- PUTS and PUTSP on a string that begins at the status word: each read of it polls. With no key the status is a zero
word and ends the string; with a key it is the character word 0x8000, after which a zero word at 0xFE01 ends the string;
on `Interrupt` the machine is HALTED(HostInterrupt) with nothing printed (R52, R173, R175; decisions D13 and D15,
assumptions 7 and 14). The 16 bits of the key in the data word are decision D11 (assumption 8). That the zero word after
the status word is still zero after the poll, and is at 0xFE01, rests on KBSR_ADDR 0xFE00 and KBDR_ADDR 0xFE02, decision
D2 (assumption 2, PRESUMED): the model's choice. -/
def Obligations.StringThroughTheStatusWord : Prop :=
  ∀ s : State, Memory.wf s.mem → s.reg .r0 = Config.kbsrAddr →
    (s.kbd.answer = .noKey → ∃ m, SameMemExcept [Config.kbsrAddr] s { s with mem := m } ∧
      m.read Config.kbsrAddr = 0x0000 ∧
      exec .puts s = .next { s with mem := m, kbd := s.kbd.advance, service := none } ∧
      exec .putsp s = .next { s with mem := m, kbd := s.kbd.advance, service := none }) ∧
    (∀ k, s.kbd.answer = .key k → s.mem.read (Config.kbsrAddr + 1) = 0 →
      ∃ m, SameMemExcept deviceWords s { s with mem := m } ∧
      m.read Config.kbsrAddr = 0x8000 ∧ m.read Config.kbdrAddr = k ∧
      exec .puts s = .next { s with
        mem := m, kbd := s.kbd.advance, service := none, console := s.console ++ [0x00] } ∧
      exec .putsp s = .next { s with
        mem := m, kbd := s.kbd.advance, service := none, console := s.console ++ [0x00, 0x80] }) ∧
    (s.kbd.answer = .interrupt →
      exec .puts s = .next { s with kbd := s.kbd.advance, run := .halted .hostInterrupt, service := none } ∧
      exec .putsp s = .next { s with kbd := s.kbd.advance, run := .halted .hostInterrupt, service := none })

/-- HALT: TRAP x25 whatever its bits 11 to 8 hold; it stops the machine with the cause TrapHalt and changes nothing else:
no message is printed (R117, R170, R176). The silence is decision D24 (assumption 8), the vector at `instr[7:0]` decision
D5 (assumption 3), and that bits 11 to 8 are ignored decisions D5 and D6 (assumption 13): the model's choice. -/
def Obligations.HaltStopsTheMachine : Prop :=
  (∀ w : Word, fieldOpcode w = Opcode.trap.bits → w.extractLsb' 0 8 = 0x25 → decode w = .halt) ∧
  ∀ s : State, exec .halt s = .next { s with run := .halted .trapHalt, service := none }

/-- TRAP with a vector outside 0x20 to 0x25 faults the machine, recording the vector, and changes nothing else (R177,
R202, R203; decision D9). -/
def Obligations.UnknownVectorFaults : Prop :=
  ∀ (v : Byte) (s : State), v.toNat < 0x20 ∨ 0x25 < v.toNat →
    exec (.trap v) s = .next { s with run := .faulted (.unknownTrapVector v), service := none }

/-- A blocking read without a key holds the cycle and changes nothing but the port: GETC as it stands, IN with its prompt
written once. The next steps ask again, whatever the host interrupt port says; the key completes the service, and an
`Interrupt` halts with R0 as it was (R119, R171, R174, R180, R217; decisions D13, D14, D26, assumption 7). The 16 bits of
the key in R0 and the low byte of IN's echo are decisions D11 and D27 (assumption 8, DESIGN CHOICE), the prompt is
decision D12 (assumption 6), and the holding over steps the model's form (D20, assumption 17). -/
def Obligations.BlockedReadHoldsTheCycle : Prop :=
  (∀ s : State, s.kbd.answer = .noKey →
    exec .getc s = .next { s with kbd := s.kbd.advance, service := some .getc } ∧
    exec .inKey s = .next { s with
      kbd := s.kbd.advance, service := some .inKey, console := s.console ++ Config.inPrompt }) ∧
  ∀ s : State, s.run = .running →
    (s.kbd.answer = .noKey → s.service = some .getc ∨ s.service = some .inKey →
      step s = .next { s with kbd := s.kbd.advance }) ∧
    (∀ k : Word, s.kbd.answer = .key k → s.service = some .getc → step s =
      .next { s with regs := s.regs.set .r0 k, kbd := s.kbd.advance, service := none }) ∧
    (∀ k : Word, s.kbd.answer = .key k → s.service = some .inKey → step s =
      .next { s with regs := s.regs.set .r0 k, kbd := s.kbd.advance, service := none,
                     console := s.console ++ [k.extractLsb' 0 8] }) ∧
    (s.kbd.answer = .interrupt → s.service = some .getc ∨ s.service = some .inKey → step s =
      .next { s with kbd := s.kbd.advance, run := .halted .hostInterrupt, service := none })

/-- What TRAP does not do: no trap writes pc, COND or a register other than R0, so none links through R7; only GETC and IN
write R0; and only PUTS and PUTSP look at memory at all, so the words 0x0020 to 0x0025 are no table (R27, R178). -/
def Obligations.TrapLinksNothing : Prop :=
  ∀ (i : Instr) (s t : State), ((∃ v, i = .trap v) ∨ i ∈ [.getc, .out, .puts, .inKey, .putsp, .halt]) →
    exec i s = .next t →
    t.pc = s.pc ∧ t.cond = s.cond ∧ SameRegsExcept [.r0] s t ∧
    (i.destinations = [] → t.regs = s.regs) ∧
    (i.core ≠ .trap 0x22 → i.core ≠ .trap 0x24 →
      t.mem = s.mem ∧ ∀ m : Memory, exec i { s with mem := m } = .next { t with mem := m })

/-! ### The reserved opcodes -/

/-- RTI and RES: a diagnostic with the instruction word and the advanced pc, and nothing else, for all 4096 words of each
(R190, R191). That the diagnostic is kept at all is decision D21 (assumption 18; R192 lets a model omit it), and that
the twelve bits are ignored is decision D6 (assumption 13): both the model's choice. -/
def Obligations.ReservedOpcodesDoNothing : Prop :=
  (∀ w : Word, fieldOpcode w = Opcode.rti.bits → decode w = .rti (w.extractLsb' 0 12) ∧
    ∀ s : State, exec (decode w) s = .next { s with diag := s.diag ++ [.reservedOpcode w s.pc] }) ∧
  (∀ w : Word, fieldOpcode w = Opcode.res.bits → decode w = .res (w.extractLsb' 0 12) ∧
    ∀ s : State, exec (decode w) s = .next { s with diag := s.diag ++ [.reservedOpcode w s.pc] })

/-! ### Frames of whole families -/

/-- The instructions that work on registers alone: ADD, AND, NOT and LEA change only DR and COND, which is the flag of the
value in DR; BR, NOP, JMP, RET, JSR and JSRR change only pc, and R7 for the two calls. Every other register, every memory
word, the run state and every port are as before (R27, R135, R145, R153). -/
def Obligations.OperateAndControlFrame : Prop :=
  (∀ (i : Instr) (dr : Reg) (s t : State),
    ((∃ a b, i = .addReg dr a b) ∨ (∃ a k, i = .addImm dr a k) ∨ (∃ a b, i = .andReg dr a b) ∨
      (∃ a k, i = .andImm dr a k) ∨ (∃ a, i = .not dr a) ∨ ∃ off, i = .lea dr off) →
    exec i s = .next t →
    t.cond = flags (t.reg dr) ∧ SameRegsExcept [dr] s t ∧ t.pc = s.pc ∧ SameMemExcept [] s t ∧ SamePorts s t) ∧
  ∀ (i : Instr) (s t : State),
    ((∃ n z p off, i = .br n z p off) ∨ (∃ off, i = .nop off) ∨ (∃ b, i = .jmp b) ∨ i = .ret ∨
      (∃ off, i = .jsr off) ∨ ∃ b, i = .jsrr b) →
    exec i s = .next t →
    t.cond = s.cond ∧ SameMemExcept [] s t ∧ SamePorts s t ∧ SameRegsExcept [.r7] s t ∧
    ((∀ off, i ≠ .jsr off) → (∀ b, i ≠ .jsrr b) → t.regs = s.regs)

/-- Loads change only DR, COND and, where they poll, the device words, the keyboard port and the run state; never pc, the
console or the diagnostic port (R27, R73, R154). -/
def Obligations.LoadFrame : Prop :=
  ∀ (i : Instr) (dr : Reg) (s t : State),
    ((∃ off, i = .ld dr off) ∨ (∃ off, i = .ldi dr off) ∨ ∃ b off, i = .ldr dr b off) →
    exec i s = .next t →
    t.pc = s.pc ∧ SameRegsExcept [dr] s t ∧ SameMemExcept deviceWords s t ∧
    t.hostStop = s.hostStop ∧ t.console = s.console ∧ t.diag = s.diag ∧
    (t.run = s.run ∧ t.service = s.service ∧ t.cond = flags (t.reg dr) ∨
      t.run = .halted .hostInterrupt ∧ t.service = none ∧ t.cond = s.cond ∧ t.regs = s.regs)

/-- Stores change memory alone: no register, COND, pc or output port (R27, R163). The words other than the one stored to
are as before, where the address is the one the meaning computes; STI's pointer read may poll. -/
def Obligations.StoreFrame : Prop :=
  ∀ (sr : Reg) (s t : State),
    (∀ off, exec (.st sr off) s = .next t →
      t.regs = s.regs ∧ t.cond = s.cond ∧ t.pc = s.pc ∧ SamePorts s t ∧ SameMemExcept [pcRel9 off s] s t) ∧
    (∀ base off, exec (.str sr base off) s = .next t →
      t.regs = s.regs ∧ t.cond = s.cond ∧ t.pc = s.pc ∧ SamePorts s t ∧ SameMemExcept [baseOff base off s] s t) ∧
    (∀ off, exec (.sti sr off) s = .next t →
      t.regs = s.regs ∧ t.cond = s.cond ∧ t.pc = s.pc ∧ t.console = s.console ∧ t.diag = s.diag ∧
      t.hostStop = s.hostStop ∧
      (∀ ea u, memRead (pcRel9 off s) s = .value ea u → SameMemExcept [ea] u t ∧ SamePorts u t) ∧
      (pcRel9 off s ≠ Config.kbsrAddr → SamePorts s t ∧ SameMemExcept [s.mem.read (pcRel9 off s)] s t) ∧
      (∀ u, memRead (pcRel9 off s) s = .stopped u → SameMemExcept [] s t))

/-! ### Rules over the whole machine -/

/-- COND is written only by ADD, AND, NOT, LD, LDI, LDR and LEA: no other instruction writes it, a step that runs no
such instruction (a fetch, the advance, a service going on, a halt) leaves it, and the loader does not touch it (R27). -/
def Obligations.CondIsWrittenOnlyByFlagSetters : Prop :=
  (∀ (i : Instr) (s t : State), i.setsCond = false → exec i s = .next t → t.cond = s.cond) ∧
  (∀ s t : State, step s = .next t →
    t.cond = s.cond ∨ (s.run = .running ∧ s.service = none ∧ s.hostStop ≠ some 0 ∧
      ∃ w u, memRead s.pc s = .value w u ∧ (decode w).setsCond = true)) ∧
  ∀ (gpr : RegFile) (c : Word) (kbd : Keyboard) (stop : Option Nat) (image : List Byte) (s : State),
    launch gpr c kbd stop image = .ok s → s.cond = c

/-- Only BR reads COND: with another COND, any other instruction does the same to everything else, and gives COND the
same value or leaves it as it was (R28). -/
def Obligations.CondIsReadOnlyByBranch : Prop :=
  ∀ (i : Instr) (s t : State) (c : Word), (∀ n z p off, i ≠ .br n z p off) → exec i s = .next t →
    exec i { s with cond := c } = .next t ∨ t.cond = s.cond ∧ exec i { s with cond := c } = .next { t with cond := c }

/-- A general register is written only as the instruction's destination: DR, R7 by the calls, R0 by GETC and IN (R21,
R22). -/
def Obligations.RegistersAreWrittenOnlyAsDestinations : Prop :=
  ∀ (i : Instr) (s t : State), exec i s = .next t → SameRegsExcept i.destinations s t

/-- Beyond the cycle's advance, pc is written only by BR, JMP (RET), JSR and JSRR (R23). -/
def Obligations.PcIsWrittenOnlyByTransfers : Prop :=
  ∀ (i : Instr) (s t : State), i.transfersControl = false → exec i s = .next t → t.pc = s.pc

/-- Memory is written only by ST, STI and STR, and by the hardware in the two device words (R73). -/
def Obligations.MemoryIsWrittenOnlyByStores : Prop :=
  ∀ (i : Instr) (s t : State), i.stores = false → exec i s = .next t → SameMemExcept deviceWords s t

/-- The console is written only by OUT, PUTS, PUTSP and IN, and what was written stays: the stream only grows (R181).
That HALT prints no message is decision D24 (assumption 8, DESIGN CHOICE): the model's choice. -/
def Obligations.ConsoleOnlyGrows : Prop :=
  (∀ (i : Instr) (s t : State), i.prints = false → exec i s = .next t → t.console = s.console) ∧
  ∀ s t : State, step s = .next t → ∃ bs, t.console = s.console ++ bs

/-! ### The cycle and the run state -/

/-- The cycle: a step at a boundary fetches with `MemRead` at pc, advances pc by 1 and runs the decoded word, and so does
one under a host interrupt port that counts down. Where the word at pc is ordinary, it is `exec` of the instruction that
word decodes to (R111, R113). The arm of a fetch that the host halts is the model's (assumption 11),
as is the form of the counting port (assumption 7); that a fetch at the status word is a `MemRead` too is decision D30
(assumption 14). -/
def Obligations.StepRunsTheDecodedInstruction : Prop :=
  (∀ s : State, s.run = .running → s.service = none → s.hostStop = none →
    (∀ w t, memRead s.pc s = .value w t → step s = exec (decode w) { t with pc := s.pc + 1 }) ∧
    (∀ t, memRead s.pc s = .stopped t → step s = .next { t with pc := s.pc + 1 })) ∧
  ∀ (s : State) (i : Instr), s.run = .running → s.service = none → s.pc ≠ Config.kbsrAddr →
    decode (s.mem.read s.pc) = i →
    (s.hostStop = none → step s = exec i { s with pc := s.pc + 1 }) ∧
    (∀ n, s.hostStop = some (n + 1) → step s = exec i { s with pc := s.pc + 1, hostStop := some n })

/-- A fetch at the status word polls, and runs the status as an instruction: RTI with a key, NOP without one; both leave
pc advanced by 1, and a host interrupt port that counts down counts one (R112, R123). That the fetch polls is decision
D30 (assumption 14), that 0x8000 is RTI and 0x0000 NOP decision D1 (assumption 1, PRESUMED), that RTI's diagnostic is
kept decision D21 (assumption 18), and the 16 bits of the key in the data word decision D11 (assumption 8). With `Interrupt` the machine is halted, decision D13 with the port's count (assumption
7), and pc is advanced (R121, R206; assumption 11). All these are the model's reading. -/
def Obligations.FetchFromTheStatusWord : Prop :=
  ∀ (s : State) (hs : Option Nat), Memory.wf s.mem → s.run = .running → s.service = none →
    (s.hostStop = none ∧ hs = none) ∨ (∃ n, s.hostStop = some (n + 1) ∧ hs = some n) →
    s.pc = Config.kbsrAddr →
    (∀ k, s.kbd.answer = .key k → ∃ m, SameMemExcept deviceWords s { s with mem := m } ∧
      m.read Config.kbsrAddr = 0x8000 ∧ m.read Config.kbdrAddr = k ∧
      step s = .next { s with mem := m, kbd := s.kbd.advance, hostStop := hs, pc := Config.kbsrAddr + 1,
                              diag := s.diag ++ [.reservedOpcode 0x8000 (Config.kbsrAddr + 1)] }) ∧
    (s.kbd.answer = .noKey → ∃ m, SameMemExcept [Config.kbsrAddr] s { s with mem := m } ∧
      m.read Config.kbsrAddr = 0x0000 ∧
      step s = .next { s with mem := m, kbd := s.kbd.advance, hostStop := hs, pc := Config.kbsrAddr + 1 }) ∧
    (s.kbd.answer = .interrupt → step s = .next { s with
      kbd := s.kbd.advance, hostStop := hs, run := .halted .hostInterrupt, pc := Config.kbsrAddr + 1 })

/-- HALTED and FAULTED are terminal: a step changes nothing (R116, R117, R203). -/
def Obligations.StoppedMachineStaysAsItIs : Prop :=
  ∀ s : State, s.run ≠ .running → step s = .next s

/-- The host interrupt at a cycle boundary is taken before the fetch: the instruction at pc does not run and nothing but
the run state changes (R206 case (a), R207; decision D13, assumption 7). -/
def Obligations.HostInterruptWinsAtTheBoundary : Prop :=
  ∀ s : State, s.run = .running → s.service = none → s.hostStop = some 0 →
    step s = .next { s with run := .halted .hostInterrupt }

/-- Every instruction answers a next state from every state, and so does every step: no word is refused and no data ends a
run (R86, R121). That no word is rejected for its uncovered bits is decision D6 (assumption 13), and the FAULTED and
HALTED ends are next states by the model's form (assumption 16). -/
def Obligations.EveryInstructionAnswersANextState : Prop :=
  (∀ (i : Instr) (s : State), ∃ t, exec i s = .next t) ∧ ∀ s : State, ∃ t, step s = .next t

/-- Every step keeps the invariant: memory canonical, COND one of its three values, a service only while RUNNING (R25,
R37). -/
def Obligations.EveryStepKeepsTheInvariant : Prop :=
  ∀ s t : State, s.Inv → step s = .next t → t.Inv

/-- The invariant holds after reset, for every value of the open parameters with a legal COND, and for the state the model
resets to (R36). -/
def Obligations.InvariantHoldsAtReset : Prop :=
  (∀ (gpr : RegFile) (c : Word) (kbd : Keyboard) (stop : Option Nat), condLegal c = true →
    (State.resetWith gpr c kbd stop).Inv) ∧ State.reset.Inv

/-- Reset leaves pc at 0x3000, RUNNING, every memory word 0, the console empty, for every value of the open parameters
(R36, R230, R231). -/
def Obligations.ResetLeavesTheStatedValues : Prop :=
  ∀ (gpr : RegFile) (c : Word) (kbd : Keyboard) (stop : Option Nat),
    (State.resetWith gpr c kbd stop).pc = 0x3000 ∧ (State.resetWith gpr c kbd stop).run = .running ∧
    (∀ a : Word, (State.resetWith gpr c kbd stop).mem.read a = 0) ∧
    (State.resetWith gpr c kbd stop).console = [] ∧ (State.resetWith gpr c kbd stop).service = none ∧
    (State.resetWith gpr c kbd stop).regs = gpr ∧ (State.resetWith gpr c kbd stop).cond = c

/-- The only step that ends in success is a cycle whose fetched word is TRAP x25, the HALT service; it leaves pc advanced
by 1, every other register, memory and every port as before, and no later step changes anything (R117, R122). That the
vector is `instr[7:0]` is decision D5 (assumption 3), that pc is not at the status word rests on 0x8000 being no TRAP,
decision D1 (assumption 1), and that no message is printed is decision D24 (assumption 8): the model's choice. -/
def Obligations.SuccessOnlyThroughTrapHalt : Prop :=
  ∀ s t : State, Memory.wf s.mem → s.run = .running → step s = .next t → t.succeeded →
    s.service = none ∧ s.pc ≠ Config.kbsrAddr ∧ fieldOpcode (s.mem.read s.pc) = Opcode.trap.bits ∧
    fieldTrapVect8 (s.mem.read s.pc) = 0x25 ∧
    (∃ hs, t = { s with pc := s.pc + 1, hostStop := hs, run := .halted .trapHalt }) ∧ step t = .next t

/-- The only step that faults is a cycle whose fetched word is TRAP with a vector outside 0x20 to 0x25; the state is the
one before it with pc advanced, and the vector is recorded (R116, R202, R203, R218). That it faults is decision D9
(assumption 16), that the vector is `instr[7:0]` decision D5 (assumption 3), and that pc is not at the status word rests on
0x8000 being no TRAP, decision D1 (assumption 1): the model's choice. -/
def Obligations.FaultOnlyThroughAnUnknownVector : Prop :=
  ∀ s t : State, Memory.wf s.mem → s.run = .running → step s = .next t → t.hasFaulted →
    s.service = none ∧ s.pc ≠ Config.kbsrAddr ∧ fieldOpcode (s.mem.read s.pc) = Opcode.trap.bits ∧
    ((fieldTrapVect8 (s.mem.read s.pc)).toNat < 0x20 ∨ 0x25 < (fieldTrapVect8 (s.mem.read s.pc)).toNat) ∧
    ∃ hs, t = { s with pc := s.pc + 1, hostStop := hs,
                       run := .faulted (.unknownTrapVector (fieldTrapVect8 (s.mem.read s.pc))) }

/-! ### The load port -/

/-- The loader stores the image's words at consecutive addresses from its big-endian origin on, modulo 2^16, the last
word stored at an address winning; it ignores a trailing byte and leaves every other word alone (R72, R233, R235). The wrap
past 0xFFFF, and so which of two words for one address stays, is decision D18 (assumption 10): the model's choice. -/
def Obligations.LoaderStoresTheImage : Prop :=
  ∀ (origin : Word) (ws : List Word) (tail : List Byte) (m : Memory), Memory.wf m → tail.length ≤ 1 →
    ∃ m', load (wordBytes origin ++ ws.flatMap wordBytes ++ tail) m = .ok m' ∧
      (∀ (j : Nat) (w : Word), ws[j]? = some w →
        (∀ k, j < k → k < ws.length → origin + BitVec.ofNat 16 k ≠ origin + BitVec.ofNat 16 j) →
        m'.read (origin + BitVec.ofNat 16 j) = w) ∧
      (∀ a : Word, (∀ j, j < ws.length → a ≠ origin + BitVec.ofNat 16 j) → m'.read a = m.read a)

/-- An image shorter than 2 bytes is refused, with no machine state; every other launch starts at 0x3000, RUNNING, whatever
the origin of the image (R230, R232, R234, R236; for the 1-byte image decision D17, assumption 10; that a failed
launch gives no state is decision D28, assumption 19). -/
def Obligations.LaunchStartsAtTheEntryPoint : Prop :=
  ∀ (gpr : RegFile) (c : Word) (kbd : Keyboard) (stop : Option Nat) (image : List Byte),
    (image.length < 2 → launch gpr c kbd stop image = .error .truncated) ∧
    (2 ≤ image.length → ∃ s, launch gpr c kbd stop image = .ok s ∧ s.pc = 0x3000 ∧ s.run = .running ∧
      s.regs = gpr ∧ s.cond = c ∧ s.console = [] ∧ load image [] = .ok s.mem)
end

