-- ==== Sys2Proof/Laws/State.lean ====
section
/-! SUPPORT. What each update of the state does to each field: one lemma per field per update, true by rfl, so that no
later proof unfolds a record update. -/

namespace Sys2Proof.Machine.State

variable (s : State)

/-! ### setReg -/

@[simp] theorem setReg_regs (r : Reg) (v : Word) : (s.setReg r v).regs = s.regs.set r v := rfl
@[simp] theorem setReg_pc (r : Reg) (v : Word) : (s.setReg r v).pc = s.pc := rfl
@[simp] theorem setReg_cond (r : Reg) (v : Word) : (s.setReg r v).cond = s.cond := rfl
@[simp] theorem setReg_mem (r : Reg) (v : Word) : (s.setReg r v).mem = s.mem := rfl
@[simp] theorem setReg_run (r : Reg) (v : Word) : (s.setReg r v).run = s.run := rfl
@[simp] theorem setReg_service (r : Reg) (v : Word) : (s.setReg r v).service = s.service := rfl
@[simp] theorem setReg_kbd (r : Reg) (v : Word) : (s.setReg r v).kbd = s.kbd := rfl
@[simp] theorem setReg_hostStop (r : Reg) (v : Word) : (s.setReg r v).hostStop = s.hostStop := rfl
@[simp] theorem setReg_console (r : Reg) (v : Word) : (s.setReg r v).console = s.console := rfl
@[simp] theorem setReg_diag (r : Reg) (v : Word) : (s.setReg r v).diag = s.diag := rfl

/-! ### setPc -/

@[simp] theorem setPc_regs (v : Word) : (s.setPc v).regs = s.regs := rfl
@[simp] theorem setPc_pc (v : Word) : (s.setPc v).pc = v := rfl
@[simp] theorem setPc_cond (v : Word) : (s.setPc v).cond = s.cond := rfl
@[simp] theorem setPc_mem (v : Word) : (s.setPc v).mem = s.mem := rfl
@[simp] theorem setPc_run (v : Word) : (s.setPc v).run = s.run := rfl
@[simp] theorem setPc_service (v : Word) : (s.setPc v).service = s.service := rfl
@[simp] theorem setPc_kbd (v : Word) : (s.setPc v).kbd = s.kbd := rfl
@[simp] theorem setPc_hostStop (v : Word) : (s.setPc v).hostStop = s.hostStop := rfl
@[simp] theorem setPc_console (v : Word) : (s.setPc v).console = s.console := rfl
@[simp] theorem setPc_diag (v : Word) : (s.setPc v).diag = s.diag := rfl
@[simp] theorem setPc_reg (v : Word) (q : Reg) : (s.setPc v).reg q = s.reg q := rfl

/-! ### setcc -/

@[simp] theorem setcc_regs (v : Word) : (s.setcc v).regs = s.regs := rfl
@[simp] theorem setcc_pc (v : Word) : (s.setcc v).pc = s.pc := rfl
@[simp] theorem setcc_cond (v : Word) : (s.setcc v).cond = flags v := rfl
@[simp] theorem setcc_mem (v : Word) : (s.setcc v).mem = s.mem := rfl
@[simp] theorem setcc_run (v : Word) : (s.setcc v).run = s.run := rfl
@[simp] theorem setcc_service (v : Word) : (s.setcc v).service = s.service := rfl
@[simp] theorem setcc_kbd (v : Word) : (s.setcc v).kbd = s.kbd := rfl
@[simp] theorem setcc_hostStop (v : Word) : (s.setcc v).hostStop = s.hostStop := rfl
@[simp] theorem setcc_console (v : Word) : (s.setcc v).console = s.console := rfl
@[simp] theorem setcc_diag (v : Word) : (s.setcc v).diag = s.diag := rfl
@[simp] theorem setcc_reg (v : Word) (q : Reg) : (s.setcc v).reg q = s.reg q := rfl

/-! ### writeResult -/

@[simp] theorem writeResult_regs (r : Reg) (v : Word) : (s.writeResult r v).regs = s.regs.set r v := rfl
@[simp] theorem writeResult_pc (r : Reg) (v : Word) : (s.writeResult r v).pc = s.pc := rfl
@[simp] theorem writeResult_cond (r : Reg) (v : Word) : (s.writeResult r v).cond = flags v := rfl
@[simp] theorem writeResult_mem (r : Reg) (v : Word) : (s.writeResult r v).mem = s.mem := rfl
@[simp] theorem writeResult_run (r : Reg) (v : Word) : (s.writeResult r v).run = s.run := rfl
@[simp] theorem writeResult_service (r : Reg) (v : Word) : (s.writeResult r v).service = s.service := rfl
@[simp] theorem writeResult_kbd (r : Reg) (v : Word) : (s.writeResult r v).kbd = s.kbd := rfl
@[simp] theorem writeResult_hostStop (r : Reg) (v : Word) : (s.writeResult r v).hostStop = s.hostStop := rfl
@[simp] theorem writeResult_console (r : Reg) (v : Word) : (s.writeResult r v).console = s.console := rfl
@[simp] theorem writeResult_diag (r : Reg) (v : Word) : (s.writeResult r v).diag = s.diag := rfl

/-! ### halt -/

@[simp] theorem halt_regs (c : HaltCause) : (s.halt c).regs = s.regs := rfl
@[simp] theorem halt_pc (c : HaltCause) : (s.halt c).pc = s.pc := rfl
@[simp] theorem halt_cond (c : HaltCause) : (s.halt c).cond = s.cond := rfl
@[simp] theorem halt_mem (c : HaltCause) : (s.halt c).mem = s.mem := rfl
@[simp] theorem halt_run (c : HaltCause) : (s.halt c).run = .halted c := rfl
@[simp] theorem halt_service (c : HaltCause) : (s.halt c).service = none := rfl
@[simp] theorem halt_kbd (c : HaltCause) : (s.halt c).kbd = s.kbd := rfl
@[simp] theorem halt_hostStop (c : HaltCause) : (s.halt c).hostStop = s.hostStop := rfl
@[simp] theorem halt_console (c : HaltCause) : (s.halt c).console = s.console := rfl
@[simp] theorem halt_diag (c : HaltCause) : (s.halt c).diag = s.diag := rfl
@[simp] theorem halt_reg (c : HaltCause) (q : Reg) : (s.halt c).reg q = s.reg q := rfl

/-! ### raise -/

@[simp] theorem raise_regs (f : FaultReason) : (s.raise f).regs = s.regs := rfl
@[simp] theorem raise_pc (f : FaultReason) : (s.raise f).pc = s.pc := rfl
@[simp] theorem raise_cond (f : FaultReason) : (s.raise f).cond = s.cond := rfl
@[simp] theorem raise_mem (f : FaultReason) : (s.raise f).mem = s.mem := rfl
@[simp] theorem raise_run (f : FaultReason) : (s.raise f).run = .faulted f := rfl
@[simp] theorem raise_service (f : FaultReason) : (s.raise f).service = none := rfl
@[simp] theorem raise_kbd (f : FaultReason) : (s.raise f).kbd = s.kbd := rfl
@[simp] theorem raise_hostStop (f : FaultReason) : (s.raise f).hostStop = s.hostStop := rfl
@[simp] theorem raise_console (f : FaultReason) : (s.raise f).console = s.console := rfl
@[simp] theorem raise_diag (f : FaultReason) : (s.raise f).diag = s.diag := rfl
@[simp] theorem raise_reg (f : FaultReason) (q : Reg) : (s.raise f).reg q = s.reg q := rfl

/-! ### afterCall -/

@[simp] theorem afterCall_regs : (s.afterCall).regs = s.regs := rfl
@[simp] theorem afterCall_pc : (s.afterCall).pc = s.pc := rfl
@[simp] theorem afterCall_cond : (s.afterCall).cond = s.cond := rfl
@[simp] theorem afterCall_mem : (s.afterCall).mem = s.mem := rfl
@[simp] theorem afterCall_run : (s.afterCall).run = s.run := rfl
@[simp] theorem afterCall_service : (s.afterCall).service = s.service := rfl
@[simp] theorem afterCall_kbd : (s.afterCall).kbd = s.kbd.advance := rfl
@[simp] theorem afterCall_hostStop : (s.afterCall).hostStop = s.hostStop := rfl
@[simp] theorem afterCall_console : (s.afterCall).console = s.console := rfl
@[simp] theorem afterCall_diag : (s.afterCall).diag = s.diag := rfl
@[simp] theorem afterCall_reg (q : Reg) : (s.afterCall).reg q = s.reg q := rfl

/-! ### writeChars -/

@[simp] theorem writeChars_regs (bs : List Byte) : (s.writeChars bs).regs = s.regs := rfl
@[simp] theorem writeChars_pc (bs : List Byte) : (s.writeChars bs).pc = s.pc := rfl
@[simp] theorem writeChars_cond (bs : List Byte) : (s.writeChars bs).cond = s.cond := rfl
@[simp] theorem writeChars_mem (bs : List Byte) : (s.writeChars bs).mem = s.mem := rfl
@[simp] theorem writeChars_run (bs : List Byte) : (s.writeChars bs).run = s.run := rfl
@[simp] theorem writeChars_service (bs : List Byte) : (s.writeChars bs).service = s.service := rfl
@[simp] theorem writeChars_kbd (bs : List Byte) : (s.writeChars bs).kbd = s.kbd := rfl
@[simp] theorem writeChars_hostStop (bs : List Byte) : (s.writeChars bs).hostStop = s.hostStop := rfl
@[simp] theorem writeChars_console (bs : List Byte) : (s.writeChars bs).console = s.console ++ bs := rfl
@[simp] theorem writeChars_diag (bs : List Byte) : (s.writeChars bs).diag = s.diag := rfl
@[simp] theorem writeChars_reg (bs : List Byte) (q : Reg) : (s.writeChars bs).reg q = s.reg q := rfl

/-! ### emitDiag -/

@[simp] theorem emitDiag_regs (e : DiagEvent) : (s.emitDiag e).regs = s.regs := rfl
@[simp] theorem emitDiag_pc (e : DiagEvent) : (s.emitDiag e).pc = s.pc := rfl
@[simp] theorem emitDiag_cond (e : DiagEvent) : (s.emitDiag e).cond = s.cond := rfl
@[simp] theorem emitDiag_mem (e : DiagEvent) : (s.emitDiag e).mem = s.mem := rfl
@[simp] theorem emitDiag_run (e : DiagEvent) : (s.emitDiag e).run = s.run := rfl
@[simp] theorem emitDiag_service (e : DiagEvent) : (s.emitDiag e).service = s.service := rfl
@[simp] theorem emitDiag_kbd (e : DiagEvent) : (s.emitDiag e).kbd = s.kbd := rfl
@[simp] theorem emitDiag_hostStop (e : DiagEvent) : (s.emitDiag e).hostStop = s.hostStop := rfl
@[simp] theorem emitDiag_console (e : DiagEvent) : (s.emitDiag e).console = s.console := rfl
@[simp] theorem emitDiag_diag (e : DiagEvent) : (s.emitDiag e).diag = s.diag ++ [e] := rfl
@[simp] theorem emitDiag_reg (e : DiagEvent) (q : Reg) : (s.emitDiag e).reg q = s.reg q := rfl

/-! ### serviceDone -/

@[simp] theorem serviceDone_regs : (s.serviceDone).regs = s.regs := rfl
@[simp] theorem serviceDone_pc : (s.serviceDone).pc = s.pc := rfl
@[simp] theorem serviceDone_cond : (s.serviceDone).cond = s.cond := rfl
@[simp] theorem serviceDone_mem : (s.serviceDone).mem = s.mem := rfl
@[simp] theorem serviceDone_run : (s.serviceDone).run = s.run := rfl
@[simp] theorem serviceDone_service : (s.serviceDone).service = none := rfl
@[simp] theorem serviceDone_kbd : (s.serviceDone).kbd = s.kbd := rfl
@[simp] theorem serviceDone_hostStop : (s.serviceDone).hostStop = s.hostStop := rfl
@[simp] theorem serviceDone_console : (s.serviceDone).console = s.console := rfl
@[simp] theorem serviceDone_diag : (s.serviceDone).diag = s.diag := rfl
@[simp] theorem serviceDone_reg (q : Reg) : (s.serviceDone).reg q = s.reg q := rfl

/-! ### serviceAt -/

@[simp] theorem serviceAt_regs (v : Service) : (s.serviceAt v).regs = s.regs := rfl
@[simp] theorem serviceAt_pc (v : Service) : (s.serviceAt v).pc = s.pc := rfl
@[simp] theorem serviceAt_cond (v : Service) : (s.serviceAt v).cond = s.cond := rfl
@[simp] theorem serviceAt_mem (v : Service) : (s.serviceAt v).mem = s.mem := rfl
@[simp] theorem serviceAt_run (v : Service) : (s.serviceAt v).run = s.run := rfl
@[simp] theorem serviceAt_service (v : Service) : (s.serviceAt v).service = some v := rfl
@[simp] theorem serviceAt_kbd (v : Service) : (s.serviceAt v).kbd = s.kbd := rfl
@[simp] theorem serviceAt_hostStop (v : Service) : (s.serviceAt v).hostStop = s.hostStop := rfl
@[simp] theorem serviceAt_console (v : Service) : (s.serviceAt v).console = s.console := rfl
@[simp] theorem serviceAt_diag (v : Service) : (s.serviceAt v).diag = s.diag := rfl
@[simp] theorem serviceAt_reg (v : Service) (q : Reg) : (s.serviceAt v).reg q = s.reg q := rfl

/-! ### advancePc -/

@[simp] theorem advancePc_regs : (s.advancePc).regs = s.regs := rfl
@[simp] theorem advancePc_pc : (s.advancePc).pc = s.pc + 1 := rfl
@[simp] theorem advancePc_cond : (s.advancePc).cond = s.cond := rfl
@[simp] theorem advancePc_mem : (s.advancePc).mem = s.mem := rfl
@[simp] theorem advancePc_run : (s.advancePc).run = s.run := rfl
@[simp] theorem advancePc_service : (s.advancePc).service = s.service := rfl
@[simp] theorem advancePc_kbd : (s.advancePc).kbd = s.kbd := rfl
@[simp] theorem advancePc_hostStop : (s.advancePc).hostStop = s.hostStop := rfl
@[simp] theorem advancePc_console : (s.advancePc).console = s.console := rfl
@[simp] theorem advancePc_diag : (s.advancePc).diag = s.diag := rfl
@[simp] theorem advancePc_reg (q : Reg) : (s.advancePc).reg q = s.reg q := rfl

end Sys2Proof.Machine.State

namespace Sys2Proof.Machine

variable (a v : Word) (s : State)

/-! ### memWrite -/

@[simp] theorem memWrite_regs : (memWrite a v s).regs = s.regs := rfl
@[simp] theorem memWrite_pc : (memWrite a v s).pc = s.pc := rfl
@[simp] theorem memWrite_cond : (memWrite a v s).cond = s.cond := rfl
@[simp] theorem memWrite_mem : (memWrite a v s).mem = s.mem.write a v := rfl
@[simp] theorem memWrite_run : (memWrite a v s).run = s.run := rfl
@[simp] theorem memWrite_service : (memWrite a v s).service = s.service := rfl
@[simp] theorem memWrite_kbd : (memWrite a v s).kbd = s.kbd := rfl
@[simp] theorem memWrite_hostStop : (memWrite a v s).hostStop = s.hostStop := rfl
@[simp] theorem memWrite_console : (memWrite a v s).console = s.console := rfl
@[simp] theorem memWrite_diag : (memWrite a v s).diag = s.diag := rfl
@[simp] theorem memWrite_reg (q : Reg) : (memWrite a v s).reg q = s.reg q := rfl

end Sys2Proof.Machine
end

