-- ==== Sys2Proof/Laws/Registers.lean ====
section
/-! SUPPORT. The register file and register numbers. -/

namespace Sys2Proof

/-- A register's number names it again (R82). -/
@[simp] theorem Reg.ofBits_bits (r : Reg) : Reg.ofBits r.bits = r := by
  cases r <;> rfl

/-- Every 3-bit field is the number of the register it names (R82). -/
@[simp] theorem Reg.bits_ofBits (b : BitVec 3) : (Reg.ofBits b).bits = b := by
  revert b
  decide

namespace Machine

/-- Reading after a write: the value written, or the register as it was (R21). -/
theorem RegFile.get_set (f : RegFile) (r q : Reg) (v : Word) :
    (f.set r v).get q = if q = r then v else f.get q := by
  cases r <;> cases q <;> rfl

@[simp] theorem RegFile.get_set_self (f : RegFile) (r : Reg) (v : Word) : (f.set r v).get r = v := by
  simp [RegFile.get_set]

theorem RegFile.get_set_ne (f : RegFile) {r q : Reg} (v : Word) (h : q ≠ r) : (f.set r v).get q = f.get q := by
  simp [RegFile.get_set, h]

/-- `x[i]` after `x[r] <- v`. -/
theorem State.setReg_reg (s : State) (r q : Reg) (v : Word) :
    (s.setReg r v).reg q = if q = r then v else s.reg q :=
  RegFile.get_set s.regs r q v

/-- `x[i]` after a flag-setting result. -/
theorem State.writeResult_reg (s : State) (r q : Reg) (v : Word) :
    (s.writeResult r v).reg q = if q = r then v else s.reg q :=
  RegFile.get_set s.regs r q v

end Machine
end Sys2Proof
end

