-- ==== Sys2Proof/Laws/Decode.lean ====
section
/-! SUPPORT. The opcode map and the vector map are one-to-one (R85, R93), and every format gives its fields back (R82,
R83). -/

namespace Sys2Proof

@[simp] theorem Opcode.ofBits_bits (o : Opcode) : Opcode.ofBits o.bits = o := by
  cases o <;> rfl

@[simp] theorem Opcode.bits_ofBits (b : BitVec 4) : (Opcode.ofBits b).bits = b := by
  revert b
  decide

@[simp] theorem TrapName.ofVector_vector (n : TrapName) : TrapName.ofVector n.vector = some n := by
  cases n <;> rfl

/-- A vector names a service exactly if it is one of 0x20 to 0x25 (R93). -/
theorem TrapName.ofVector_eq_none (v : Byte) :
    TrapName.ofVector v = none ↔ v.toNat < 0x20 ∨ 0x25 < v.toNat := by
  revert v
  decide

/-- A named service's vector is the one it was found by. -/
theorem TrapName.vector_of_ofVector {v : Byte} {n : TrapName} (h : TrapName.ofVector v = some n) : n.vector = v := by
  have := List.find?_some h
  simpa using this

/-! ### Fields of concatenations -/

variable {n m : Nat}

theorem extract_low (x : BitVec n) (y : BitVec m) : (x ++ y).extractLsb' 0 m = y := by
  ext i hi
  simp [BitVec.getLsbD_append, hi]

theorem extract_high (x : BitVec n) (y : BitVec m) (k len : Nat) :
    (x ++ y).extractLsb' (m + k) len = x.extractLsb' k len := by
  ext i hi
  simp [BitVec.getLsbD_append, show ¬ m + k + i < m by omega, show m + k + i - m = k + i by omega]

theorem bit_high (x : BitVec n) (y : BitVec m) (k : Nat) : (x ++ y).getLsbD (m + k) = x.getLsbD k := by
  simp [BitVec.getLsbD_append, show ¬ m + k < m by omega]

theorem bit_low (x : BitVec n) (b : Bool) : (x ++ BitVec.ofBool b).getLsbD 0 = b := by
  rw [BitVec.getLsbD_append]
  simp

/-! ### The fields of each format -/

section
variable (o : Opcode) (r q p : Reg)

@[simp] theorem fieldOpcode_encodePcRel (off : BitVec 9) : fieldOpcode (encodePcRel o r off) = o.bits :=
  (extract_high (o.bits ++ r.bits) off 3 4).trans
    ((extract_high o.bits r.bits 0 4).trans BitVec.extractLsb'_eq_self)

@[simp] theorem fieldDr_encodePcRel (off : BitVec 9) : fieldDr (encodePcRel o r off) = r :=
  (congrArg Reg.ofBits ((extract_high (o.bits ++ r.bits) off 0 3).trans (extract_low o.bits r.bits))).trans (by simp)

@[simp] theorem fieldPcOffset9_encodePcRel (off : BitVec 9) : fieldPcOffset9 (encodePcRel o r off) = off :=
  extract_low (o.bits ++ r.bits) off

@[simp] theorem fieldOpcode_encodeBase (off : BitVec 6) : fieldOpcode (encodeBase o r q off) = o.bits :=
  (extract_high (o.bits ++ r.bits ++ q.bits) off 6 4).trans ((extract_high (o.bits ++ r.bits) q.bits 3 4).trans
    ((extract_high o.bits r.bits 0 4).trans BitVec.extractLsb'_eq_self))

@[simp] theorem fieldDr_encodeBase (off : BitVec 6) : fieldDr (encodeBase o r q off) = r :=
  (congrArg Reg.ofBits ((extract_high (o.bits ++ r.bits ++ q.bits) off 3 3).trans
    ((extract_high (o.bits ++ r.bits) q.bits 0 3).trans (extract_low o.bits r.bits)))).trans (by simp)

@[simp] theorem fieldSr1_encodeBase (off : BitVec 6) : fieldSr1 (encodeBase o r q off) = q :=
  (congrArg Reg.ofBits ((extract_high (o.bits ++ r.bits ++ q.bits) off 0 3).trans
    (extract_low (o.bits ++ r.bits) q.bits))).trans (by simp)

@[simp] theorem fieldOffset6_encodeBase (off : BitVec 6) : fieldOffset6 (encodeBase o r q off) = off :=
  extract_low (o.bits ++ r.bits ++ q.bits) off

@[simp] theorem fieldOpcode_encodeOprR : fieldOpcode (encodeOprR o r q p) = o.bits :=
  (extract_high (o.bits ++ r.bits ++ q.bits ++ 0#1 ++ 0#2) p.bits 9 4).trans
    ((extract_high (o.bits ++ r.bits ++ q.bits ++ 0#1) 0#2 7 4).trans
      ((extract_high (o.bits ++ r.bits ++ q.bits) 0#1 6 4).trans ((extract_high (o.bits ++ r.bits) q.bits 3 4).trans
        ((extract_high o.bits r.bits 0 4).trans BitVec.extractLsb'_eq_self))))

@[simp] theorem fieldDr_encodeOprR : fieldDr (encodeOprR o r q p) = r :=
  (congrArg Reg.ofBits ((extract_high (o.bits ++ r.bits ++ q.bits ++ 0#1 ++ 0#2) p.bits 6 3).trans
    ((extract_high (o.bits ++ r.bits ++ q.bits ++ 0#1) 0#2 4 3).trans
      ((extract_high (o.bits ++ r.bits ++ q.bits) 0#1 3 3).trans ((extract_high (o.bits ++ r.bits) q.bits 0 3).trans
        (extract_low o.bits r.bits)))))).trans (by simp)

@[simp] theorem fieldSr1_encodeOprR : fieldSr1 (encodeOprR o r q p) = q :=
  (congrArg Reg.ofBits ((extract_high (o.bits ++ r.bits ++ q.bits ++ 0#1 ++ 0#2) p.bits 3 3).trans
    ((extract_high (o.bits ++ r.bits ++ q.bits ++ 0#1) 0#2 1 3).trans
      ((extract_high (o.bits ++ r.bits ++ q.bits) 0#1 0 3).trans
        (extract_low (o.bits ++ r.bits) q.bits))))).trans (by simp)

@[simp] theorem fieldImmMode_encodeOprR : fieldImmMode (encodeOprR o r q p) = false :=
  (bit_high (o.bits ++ r.bits ++ q.bits ++ 0#1 ++ 0#2) p.bits 2).trans
    ((bit_high (o.bits ++ r.bits ++ q.bits ++ 0#1) 0#2 0).trans (bit_low (o.bits ++ r.bits ++ q.bits) false))

@[simp] theorem fieldSr2_encodeOprR : fieldSr2 (encodeOprR o r q p) = p :=
  (congrArg Reg.ofBits (extract_low (o.bits ++ r.bits ++ q.bits ++ 0#1 ++ 0#2) p.bits)).trans (by simp)

@[simp] theorem fieldOpcode_encodeOprI (i : BitVec 5) : fieldOpcode (encodeOprI o r q i) = o.bits :=
  (extract_high (o.bits ++ r.bits ++ q.bits ++ 1#1) i 7 4).trans
    ((extract_high (o.bits ++ r.bits ++ q.bits) 1#1 6 4).trans ((extract_high (o.bits ++ r.bits) q.bits 3 4).trans
      ((extract_high o.bits r.bits 0 4).trans BitVec.extractLsb'_eq_self)))

@[simp] theorem fieldDr_encodeOprI (i : BitVec 5) : fieldDr (encodeOprI o r q i) = r :=
  (congrArg Reg.ofBits ((extract_high (o.bits ++ r.bits ++ q.bits ++ 1#1) i 4 3).trans
    ((extract_high (o.bits ++ r.bits ++ q.bits) 1#1 3 3).trans ((extract_high (o.bits ++ r.bits) q.bits 0 3).trans
      (extract_low o.bits r.bits))))).trans (by simp)

@[simp] theorem fieldSr1_encodeOprI (i : BitVec 5) : fieldSr1 (encodeOprI o r q i) = q :=
  (congrArg Reg.ofBits ((extract_high (o.bits ++ r.bits ++ q.bits ++ 1#1) i 1 3).trans
    ((extract_high (o.bits ++ r.bits ++ q.bits) 1#1 0 3).trans
      (extract_low (o.bits ++ r.bits) q.bits)))).trans (by simp)

@[simp] theorem fieldImmMode_encodeOprI (i : BitVec 5) : fieldImmMode (encodeOprI o r q i) = true :=
  (bit_high (o.bits ++ r.bits ++ q.bits ++ 1#1) i 0).trans (bit_low (o.bits ++ r.bits ++ q.bits) true)

@[simp] theorem fieldImm5_encodeOprI (i : BitVec 5) : fieldImm5 (encodeOprI o r q i) = i :=
  extract_low (o.bits ++ r.bits ++ q.bits ++ 1#1) i

@[simp] theorem fieldOpcode_encodeNot : fieldOpcode (encodeNot r q) = Opcode.not.bits :=
  fieldOpcode_encodeBase .not r q 0x3F

@[simp] theorem fieldDr_encodeNot : fieldDr (encodeNot r q) = r := fieldDr_encodeBase .not r q 0x3F

@[simp] theorem fieldSr1_encodeNot : fieldSr1 (encodeNot r q) = q := fieldSr1_encodeBase .not r q 0x3F

@[simp] theorem fieldOpcode_encodeJmp : fieldOpcode (encodeJmp r) = Opcode.jmp.bits :=
  fieldOpcode_encodeBase .jmp .r0 r 0

@[simp] theorem fieldSr1_encodeJmp : fieldSr1 (encodeJmp r) = r := fieldSr1_encodeBase .jmp .r0 r 0

@[simp] theorem fieldOpcode_encodeJsr (off : BitVec 11) : fieldOpcode (encodeJsr off) = Opcode.jsr.bits :=
  (extract_high (Opcode.jsr.bits ++ 1#1) off 1 4).trans
    ((extract_high Opcode.jsr.bits 1#1 0 4).trans BitVec.extractLsb'_eq_self)

@[simp] theorem fieldJsrMode_encodeJsr (off : BitVec 11) : fieldJsrMode (encodeJsr off) = true :=
  (bit_high (Opcode.jsr.bits ++ 1#1) off 0).trans (bit_low Opcode.jsr.bits true)

@[simp] theorem fieldPcOffset11_encodeJsr (off : BitVec 11) : fieldPcOffset11 (encodeJsr off) = off :=
  extract_low (Opcode.jsr.bits ++ 1#1) off

@[simp] theorem fieldOpcode_encodeJsrr : fieldOpcode (encodeJsrr r) = Opcode.jsr.bits := by
  cases r <;> rfl

@[simp] theorem fieldJsrMode_encodeJsrr : fieldJsrMode (encodeJsrr r) = false := by
  cases r <;> rfl

@[simp] theorem fieldSr1_encodeJsrr : fieldSr1 (encodeJsrr r) = r := by
  cases r <;> rfl

@[simp] theorem fieldOpcode_encodeTrap (v : Byte) : fieldOpcode (encodeTrap v) = Opcode.trap.bits :=
  (extract_high (Opcode.trap.bits ++ 0#4) v 4 4).trans
    ((extract_high Opcode.trap.bits 0#4 0 4).trans BitVec.extractLsb'_eq_self)

@[simp] theorem fieldTrapVect8_encodeTrap (v : Byte) : fieldTrapVect8 (encodeTrap v) = v :=
  extract_low (Opcode.trap.bits ++ 0#4) v

@[simp] theorem fieldOpcode_encodeRsv (b : BitVec 12) : fieldOpcode (encodeRsv o b) = o.bits :=
  (extract_high o.bits b 0 4).trans BitVec.extractLsb'_eq_self

@[simp] theorem fieldReserved_encodeRsv (b : BitVec 12) : fieldReserved (encodeRsv o b) = b :=
  extract_low o.bits b

@[simp] theorem fieldOpcode_encodeBr (x y z : Bool) (off : BitVec 9) :
    fieldOpcode (encodeBr x y z off) = Opcode.br.bits :=
  (extract_high (Opcode.br.bits ++ BitVec.ofBool x ++ BitVec.ofBool y ++ BitVec.ofBool z) off 3 4).trans
    (by cases x <;> cases y <;> cases z <;> rfl)

@[simp] theorem fieldNzp_encodeBr (x y z : Bool) (off : BitVec 9) :
    fieldNzp (encodeBr x y z off) = (x, y, z) := by
  have h (k : Nat) : (encodeBr x y z off).getLsbD (9 + k) =
      (Opcode.br.bits ++ BitVec.ofBool x ++ BitVec.ofBool y ++ BitVec.ofBool z).getLsbD k :=
    bit_high _ off k
  rw [fieldNzp, h 2, h 1, h 0]
  cases x <;> cases y <;> cases z <;> rfl

@[simp] theorem fieldPcOffset9_encodeBr (x y z : Bool) (off : BitVec 9) :
    fieldPcOffset9 (encodeBr x y z off) = off :=
  extract_low (Opcode.br.bits ++ BitVec.ofBool x ++ BitVec.ofBool y ++ BitVec.ofBool z) off

end

/-! ### Words under the masks of the opcode table -/

/-- A word under the mask of a row that fixes the opcode alone. -/
theorem mask_opcode (w : Word) : w &&& 0xF000 = fieldOpcode w ++ 0#12 := by
  apply BitVec.eq_of_getLsbD_eq
  intro i hi
  rw [BitVec.getLsbD_append]
  interval_cases i <;> simp [fieldOpcode]

/-- Under the mask of ADD and AND: the opcode and the mode flag. -/
theorem mask_opr (w : Word) : w &&& 0xF020 = fieldOpcode w ++ 0#6 ++ BitVec.ofBool (fieldImmMode w) ++ 0#5 := by
  apply BitVec.eq_of_getLsbD_eq
  intro i hi
  rw [BitVec.getLsbD_append, BitVec.getLsbD_append, BitVec.getLsbD_append]
  interval_cases i <;> simp [fieldOpcode, fieldImmMode]

/-- Under the mask of JSR and JSRR. -/
theorem mask_jsr (w : Word) : w &&& 0xF800 = fieldOpcode w ++ BitVec.ofBool (fieldJsrMode w) ++ 0#11 := by
  apply BitVec.eq_of_getLsbD_eq
  intro i hi
  rw [BitVec.getLsbD_append, BitVec.getLsbD_append]
  interval_cases i <;> simp [fieldOpcode, fieldJsrMode]

/-- Under the mask of RET. -/
theorem mask_jmp (w : Word) : w &&& 0xF1C0 = fieldOpcode w ++ 0#3 ++ (fieldSr1 w).bits ++ 0#6 := by
  apply BitVec.eq_of_getLsbD_eq
  intro i hi
  rw [BitVec.getLsbD_append, BitVec.getLsbD_append, BitVec.getLsbD_append]
  interval_cases i <;> simp [fieldOpcode, fieldSr1]

/-- Under the mask of a service. -/
theorem mask_trap (w : Word) : w &&& 0xF0FF = fieldOpcode w ++ 0#4 ++ fieldTrapVect8 w := by
  apply BitVec.eq_of_getLsbD_eq
  intro i hi
  rw [BitVec.getLsbD_append, BitVec.getLsbD_append]
  interval_cases i <;> simp [fieldOpcode, fieldTrapVect8]

/-- Under the mask of NOP. -/
theorem mask_br (w : Word) : w &&& 0xFE00 = fieldOpcode w ++ BitVec.ofBool (fieldNzp w).1 ++
   BitVec.ofBool (fieldNzp w).2.1 ++ BitVec.ofBool (fieldNzp w).2.2 ++ 0#9 := by
  apply BitVec.eq_of_getLsbD_eq
  intro i hi
  rw [BitVec.getLsbD_append, BitVec.getLsbD_append, BitVec.getLsbD_append, BitVec.getLsbD_append]
  interval_cases i <;> simp [fieldOpcode, fieldNzp]

end Sys2Proof
end

