-- ==== Sys2Proof/Laws/Memory.lean ====
section
/-! SUPPORT. The memory array: reading after a write, and the canonical form. -/

namespace Sys2Proof.Machine.Memory

@[simp] theorem read_nil (a : Word) : Memory.read [] a = Config.unlistedWord := rfl

/-- An address below every listed one reads as an unlisted one. -/
theorem read_of_lt (m : Memory) (a : Word) (h : ∀ c ∈ m, a.toNat < c.1) : Memory.read m a = Config.unlistedWord := by
  induction m with
  | nil => rfl
  | cons c rest ih =>
    have hc : c.1 ≠ a.toNat := by
      have := h c (by simp)
      omega
    simp only [Memory.read, if_neg hc]
    exact ih fun d hd => h d (by simp [hd])

/-- A write adds no address but its own. -/
theorem mem_write {m : Memory} {a v : Word} {c : Nat × Word} (h : c ∈ m.write a v) :
    c ∈ m ∨ (c = (a.toNat, v) ∧ v ≠ Config.unlistedWord) := by
  induction m with
  | nil =>
    by_cases hv : v = Config.unlistedWord <;> simp_all [Memory.write]
  | cons d rest ih =>
    simp only [Memory.write] at h
    split at h
    · rcases List.mem_cons.1 h with h | h
      · simp [h]
      · rcases ih h with h | h
        · simp [h]
        · exact .inr h
    · split at h
      · split at h
        · simp [h]
        · rcases List.mem_cons.1 h with h | h
          · exact .inr ⟨by simp_all, by assumption⟩
          · simp [h]
      · split at h
        · exact .inl h
        · rcases List.mem_cons.1 h with h | h
          · exact .inr ⟨h, by assumption⟩
          · exact .inl h

@[simp] theorem wf_nil : Memory.wf [] := by simp [Memory.wf]

/-- The tail of a canonical memory is canonical. -/
theorem wf_tail {c : Nat × Word} {m : Memory} (h : Memory.wf (c :: m)) : Memory.wf m :=
  ⟨(List.pairwise_cons.1 h.1).2, fun d hd => h.2 d (by simp [hd])⟩

/-- Every write keeps the canonical form. -/
theorem write_wf {m : Memory} (h : Memory.wf m) (a v : Word) : Memory.wf (m.write a v) := by
  refine ⟨?_, fun c hc => ?_⟩
  · induction m with
    | nil => by_cases hv : v = Config.unlistedWord <;> simp [Memory.write, hv]
    | cons d rest ih =>
      obtain ⟨hd, hrest⟩ := List.pairwise_cons.1 h.1
      simp only [Memory.write]
      split
      · refine List.pairwise_cons.2 ⟨fun c hc => ?_, ih (wf_tail h)⟩
        rcases mem_write hc with hc | ⟨rfl, -⟩
        · exact hd c hc
        · assumption
      · split
        · split
          · exact hrest
          · exact List.pairwise_cons.2 ⟨hd, hrest⟩
        · split
          · exact h.1
          · refine List.pairwise_cons.2 ⟨fun c hc => ?_, h.1⟩
            rcases List.mem_cons.1 hc with hc | hc
            · rw [hc]
              show a.toNat < d.1
              omega
            · exact Nat.lt_trans (by omega) (hd c hc)
  · rcases mem_write hc with hc | ⟨rfl, hv⟩
    · exact h.2 c hc
    · exact ⟨a.isLt, hv⟩

/-- A write leaves every other word as it was, whatever the list is (R53). -/
theorem read_write_ne (m : Memory) {a b : Word} (v : Word) (hb : b ≠ a) : (m.write a v).read b = m.read b := by
  have hne : a.toNat ≠ b.toNat := fun e => hb (BitVec.toNat_inj.1 e).symm
  induction m with
  | nil => by_cases hv : v = Config.unlistedWord <;> simp [Memory.write, Memory.read, hv, hne]
  | cons d rest ih =>
    simp only [Memory.write]
    split
    · simp only [Memory.read, ih]
    · split
      · have hd : d.1 ≠ b.toNat := by omega
        split <;> simp [Memory.read, hd]
      · split <;> simp [Memory.read, hne]

/-- The word written is the word read, in a memory in canonical form (R53). -/
theorem read_write_self {m : Memory} (h : Memory.wf m) (a v : Word) : (m.write a v).read a = v := by
  induction m with
  | nil => by_cases hv : v = Config.unlistedWord <;> simp [Memory.write, Memory.read, hv]
  | cons d rest ih =>
    have hd := (List.pairwise_cons.1 h.1).1
    simp only [Memory.write]
    split
    · rename_i hlt
      simp [Memory.read, ih (wf_tail h), Nat.ne_of_lt hlt]
    · split
      · rename_i heq
        split
        · rename_i hv
          rw [hv]
          exact read_of_lt rest a fun c hc => heq ▸ hd c hc
        · simp [Memory.read, heq]
      · split
        · rename_i hv
          rw [hv]
          refine read_of_lt _ a fun c hc => ?_
          rcases List.mem_cons.1 hc with hc | hc
          · rw [hc]
            omega
          · have := hd c hc
            omega
        · simp [Memory.read]

/-- Reading after a write: the word written at its address, every other word as it was (R53, R64). -/
theorem read_write {m : Memory} (h : Memory.wf m) (a v b : Word) :
    (m.write a v).read b = if b = a then v else m.read b := by
  by_cases hb : b = a
  · subst hb
    rw [if_pos rfl, read_write_self h]
  · rw [if_neg hb, read_write_ne m v hb]

/-- A listed address reads as its entry. -/
theorem read_mem {m : Memory} (h : Memory.wf m) {a v : Word} (hv : (a.toNat, v) ∈ m) : m.read a = v := by
  induction m with
  | nil => cases hv
  | cons d rest ih =>
    rcases List.mem_cons.1 hv with rfl | hr
    · simp [Memory.read]
    · have lt : d.1 < a.toNat := (List.pairwise_cons.1 h.1).1 _ hr
      simp [Memory.read, Nat.ne_of_lt lt, ih (wf_tail h) hr]

/-- The first entry of a canonical memory is what its address reads as, and every smaller address reads as unlisted. -/
theorem read_head {k : Nat} {v : Word} {rest : Memory} (h : Memory.wf ((k, v) :: rest)) :
    Memory.read ((k, v) :: rest) (BitVec.ofNat 16 k) = v ∧
    ∀ a : Word, a.toNat < k → Memory.read ((k, v) :: rest) a = Config.unlistedWord := by
  have hk : k < 65536 := (h.2 (k, v) (by simp)).1
  refine ⟨by simp [Memory.read, Nat.mod_eq_of_lt hk], fun a ha => read_of_lt _ a fun c hc => ?_⟩
  rcases List.mem_cons.1 hc with rfl | hc
  · exact ha
  · exact Nat.lt_trans ha ((List.pairwise_cons.1 h.1).1 c hc)

/-- Two canonical memories that read alike are the same list: equal memories are equal data. -/
theorem ext {m n : Memory} (hm : Memory.wf m) (hn : Memory.wf n) (h : ∀ a, m.read a = n.read a) : m = n := by
  induction m generalizing n with
  | nil =>
    cases n with
    | nil => rfl
    | cons d rest =>
      have := h (BitVec.ofNat 16 d.1)
      rw [(read_head hn).1] at this
      exact absurd this.symm (hn.2 d (by simp)).2
  | cons c rest ih =>
    cases n with
    | nil =>
      have := h (BitVec.ofNat 16 c.1)
      rw [(read_head hm).1] at this
      exact absurd this (hm.2 c (by simp)).2
    | cons d rest' =>
      have hc := hm.2 c (by simp)
      have hd := hn.2 d (by simp)
      have toNat_of {k : Nat} (hk : k < 65536) : (BitVec.ofNat 16 k).toNat = k := by simp [Nat.mod_eq_of_lt hk]
      have keys : c.1 = d.1 := by
        rcases Nat.lt_trichotomy c.1 d.1 with hlt | heq | hgt
        · have := h (BitVec.ofNat 16 c.1)
          rw [(read_head hm).1, (read_head hn).2 _ (by rwa [toNat_of hc.1])] at this
          exact absurd this hc.2
        · exact heq
        · have := h (BitVec.ofNat 16 d.1)
          rw [(read_head hn).1, (read_head hm).2 _ (by rwa [toNat_of hd.1])] at this
          exact absurd this.symm hd.2
      have words : c.2 = d.2 := by
        have := h (BitVec.ofNat 16 c.1)
        rwa [(read_head hm).1, keys, (read_head hn).1] at this
      have heads : c = d := Prod.ext keys words
      subst heads
      refine congrArg (c :: ·) (ih (wf_tail hm) (wf_tail hn) fun a => ?_)
      by_cases ha : c.1 = a.toNat
      · rw [read_of_lt rest a fun e he => ha ▸ (List.pairwise_cons.1 hm.1).1 e he,
          read_of_lt rest' a fun e he => ha ▸ (List.pairwise_cons.1 hn.1).1 e he]
      · have := h a
        simpa only [Memory.read, if_neg ha] using this

end Sys2Proof.Machine.Memory
end

