-- ==== Sys2Proof/Laws/Operands.lean ====
section
/-! SUPPORT. Sign extension, the flag calculator and the branch test, said once. -/

namespace Sys2Proof.Machine

/-- `sext_N` is the sign extension of bit vectors (R9). -/
theorem sext_eq_signExtend {n : Nat} (f : BitVec n) (hpos : 0 < n) (hle : n ≤ 16) : sext f = f.signExtend 16 := by
  unfold sext
  apply BitVec.eq_of_getLsbD_eq
  intro i hi
  rw [BitVec.getLsbD_signExtend, BitVec.msb_eq_getLsbD_last]
  split
  · rename_i hm
    rw [hm]
    by_cases hin : i < n
    · simp [hin, hi]
    · simp only [hin, hi, BitVec.getLsbD_or, BitVec.getLsbD_setWidth, BitVec.getLsbD_shiftLeft, decide_true, decide_false,
        Bool.not_false, Bool.true_and, if_false]
      rw [Bool.or_eq_true]
      right
      have : i - n < 16 := by omega
      interval_cases (i - n) <;> rfl
  · rename_i hm
    rw [show f.getLsbD (n - 1) = false by simpa using hm]
    by_cases hin : i < n
    · simp [hin, hi]
    · simpa [hin, hi] using BitVec.getLsbD_of_ge f i (by omega)

/-- The flag calculator gives one of COND's three values (R25, R26). -/
theorem condLegal_flags (v : Word) : condLegal (flags v) = true := by
  unfold flags
  split
  · decide
  · split <;> decide

/-- A mask 000 is never taken (R140). -/
@[simp] theorem branchTaken_mask_000 (c : Word) : branchTaken false false false c = false := by
  simp [branchTaken, branchMask]

end Sys2Proof.Machine
end

