-- ==== Sys2Proof/Laws/Ops.lean ====
section
/-! SUPPORT. What each shared operation can do, said once: the memory read, the wait for a key, the string loop. -/

namespace Sys2Proof.Machine

/-! ### The keyboard port -/

@[simp] theorem Keyboard.answer_cons (a : KbdAnswer) (rest : List KbdAnswer) (n : Nat) :
    (Keyboard.mk (a :: rest) n).answer = a := rfl

@[simp] theorem Keyboard.advance_cons (a : KbdAnswer) (rest : List KbdAnswer) (n : Nat) :
    (Keyboard.mk (a :: rest) n).advance = ⟨rest, n⟩ := rfl

/-! ### The device words -/

theorem kbdr_ne_kbsr : Config.kbdrAddr ≠ Config.kbsrAddr := by decide

/-- The memory after a poll that found key `k` (R52). -/
def polledMem (k : Word) (m : Memory) : Memory :=
  (m.write Config.kbsrAddr Config.kbsrReady).write Config.kbdrAddr k

theorem polledMem_status {m : Memory} (h : Memory.wf m) (k : Word) :
    (polledMem k m).read Config.kbsrAddr = Config.kbsrReady := by
  rw [polledMem, Memory.read_write_ne _ _ kbdr_ne_kbsr.symm, Memory.read_write_self h]

theorem polledMem_data {m : Memory} (h : Memory.wf m) (k : Word) : (polledMem k m).read Config.kbdrAddr = k :=
  Memory.read_write_self (Memory.write_wf h _ _) _ _

theorem polledMem_wf {m : Memory} (h : Memory.wf m) (k : Word) : Memory.wf (polledMem k m) :=
  Memory.write_wf (Memory.write_wf h _ _) _ _

theorem polledMem_other (m : Memory) (k : Word) {a : Word} (hs : a ≠ Config.kbsrAddr) (hd : a ≠ Config.kbdrAddr) :
    (polledMem k m).read a = m.read a := by
  rw [polledMem, Memory.read_write_ne _ _ hd, Memory.read_write_ne _ _ hs]

/-! ### memRead -/

/-- A read of any address but the status word (R52, R61). -/
theorem memRead_plain {a : Word} (h : a ≠ Config.kbsrAddr) (s : State) : memRead a s = .value (s.mem.read a) s := by
  simp [memRead, h]

/-- A read of the status word, by what the host answers (R52). -/
theorem memRead_status (s : State) :
    memRead Config.kbsrAddr s = match s.kbd.answer with
      | .key k => .value ((polledMem k s.mem).read Config.kbsrAddr) { s.afterCall with mem := polledMem k s.mem }
      | .noKey => .value ((s.mem.write Config.kbsrAddr Config.kbsrIdle).read Config.kbsrAddr)
          { s.afterCall with mem := s.mem.write Config.kbsrAddr Config.kbsrIdle }
      | .interrupt => .stopped (s.afterCall.halt .hostInterrupt) := by
  simp only [memRead, if_true]
  cases s.kbd.answer <;> rfl

/-- Everything a read can do when it gives a word: nothing, or a poll that used one answer and wrote the device words. -/
theorem memRead_value {a : Word} {s t : State} {w : Word} (h : memRead a s = .value w t) :
    (a ≠ Config.kbsrAddr ∧ w = s.mem.read a ∧ t = s) ∨
    (a = Config.kbsrAddr ∧ w = t.mem.read Config.kbsrAddr ∧
      ((∃ k, s.kbd.answer = .key k ∧ t = { s.afterCall with mem := polledMem k s.mem }) ∨
        (s.kbd.answer = .noKey ∧
          t = { s.afterCall with mem := s.mem.write Config.kbsrAddr Config.kbsrIdle }))) := by
  by_cases ha : a = Config.kbsrAddr
  · subst ha
    rw [memRead_status] at h
    refine .inr ⟨rfl, ?_⟩
    split at h
    · rename_i k hk
      cases h
      exact ⟨rfl, .inl ⟨k, hk, rfl⟩⟩
    · rename_i hk
      cases h
      exact ⟨rfl, .inr ⟨hk, rfl⟩⟩
    · cases h
  · rw [memRead_plain ha] at h
    cases h
    exact .inl ⟨ha, rfl, rfl⟩

/-- A read halts the machine only as the status read whose poll the host answers with `Interrupt`. -/
theorem memRead_stopped {a : Word} {s t : State} (h : memRead a s = .stopped t) :
    a = Config.kbsrAddr ∧ s.kbd.answer = .interrupt ∧ t = s.afterCall.halt .hostInterrupt := by
  by_cases ha : a = Config.kbsrAddr
  · subst ha
    rw [memRead_status] at h
    split at h
    · cases h
    · cases h
    · rename_i hk
      cases h
      exact ⟨rfl, hk, rfl⟩
  · rw [memRead_plain ha] at h
    cases h

/-- What a read that gives a word leaves alone: everything but the device words and the keyboard port. -/
theorem memRead_frame {a : Word} {s t : State} {w : Word} (h : memRead a s = .value w t) :
    (t.regs = s.regs ∧ t.pc = s.pc ∧ t.cond = s.cond ∧ t.run = s.run ∧ t.service = s.service ∧
      t.hostStop = s.hostStop ∧ t.console = s.console ∧ t.diag = s.diag) ∧
    ∀ b, b ≠ Config.kbsrAddr → b ≠ Config.kbdrAddr → t.mem.read b = s.mem.read b := by
  rcases memRead_value h with ⟨-, -, rfl⟩ | ⟨-, -, ⟨k, -, rfl⟩ | ⟨-, rfl⟩⟩
  · exact ⟨⟨rfl, rfl, rfl, rfl, rfl, rfl, rfl, rfl⟩, fun _ _ _ => rfl⟩
  · exact ⟨⟨rfl, rfl, rfl, rfl, rfl, rfl, rfl, rfl⟩, fun b hs hd => polledMem_other s.mem k hs hd⟩
  · exact ⟨⟨rfl, rfl, rfl, rfl, rfl, rfl, rfl, rfl⟩, fun b hs _ => Memory.read_write_ne s.mem _ hs⟩

/-- A read keeps the canonical form. -/
theorem memRead_wf {a : Word} {s t : State} {w : Word} (hm : Memory.wf s.mem) (h : memRead a s = .value w t) :
    Memory.wf t.mem := by
  rcases memRead_value h with ⟨-, -, rfl⟩ | ⟨-, -, ⟨k, -, rfl⟩ | ⟨-, rfl⟩⟩
  · exact hm
  · exact polledMem_wf hm k
  · exact Memory.write_wf hm _ _

@[simp] theorem andThen_value (w : Word) (s : State) (k : Word → State → StepResult) :
    (ReadResult.value w s).andThen k = k w s := rfl

@[simp] theorem andThen_stopped (s : State) (k : Word → State → StepResult) :
    (ReadResult.stopped s).andThen k = .next s := rfl

/-! ### awaitKey -/

/-- The wait for a key, by what the host answers (R119, R171, R174). -/
theorem awaitKey_cases (wait : Service) (done : Word → State → State) (s : State) :
    (∃ k, s.kbd.answer = .key k ∧ awaitKey wait done s = (done k s.afterCall).serviceDone) ∨
    (s.kbd.answer = .noKey ∧ awaitKey wait done s = s.afterCall.serviceAt wait) ∨
    (s.kbd.answer = .interrupt ∧ awaitKey wait done s = s.afterCall.halt .hostInterrupt) := by
  unfold awaitKey
  split
  · rename_i k hk
    exact .inl ⟨k, hk, rfl⟩
  · rename_i hk
    exact .inr (.inl ⟨hk, rfl⟩)
  · rename_i hk
    exact .inr (.inr ⟨hk, rfl⟩)

theorem awaitKey_key {s : State} {k : Word} (h : s.kbd.answer = .key k) (wait : Service)
    (done : Word → State → State) : awaitKey wait done s = (done k s.afterCall).serviceDone := by
  simp only [awaitKey, h]

theorem awaitKey_noKey {s : State} (h : s.kbd.answer = .noKey) (wait : Service) (done : Word → State → State) :
    awaitKey wait done s = s.afterCall.serviceAt wait := by
  simp only [awaitKey, h]

theorem awaitKey_interrupt {s : State} (h : s.kbd.answer = .interrupt) (wait : Service)
    (done : Word → State → State) : awaitKey wait done s = s.afterCall.halt .hostInterrupt := by
  simp only [awaitKey, h]

/-- The wait keeps every property that its three moves keep. -/
theorem awaitKey_induction {P : State → Prop} (wait : Service) (done : Word → State → State) (s : State)
    (h : P s.afterCall) (hdone : ∀ k t, P t → P (done k t).serviceDone) (hwait : ∀ t, P t → P (t.serviceAt wait))
    (hstop : ∀ t, P t → P (t.halt .hostInterrupt)) : P (awaitKey wait done s) := by
  rcases awaitKey_cases wait done s with ⟨k, -, e⟩ | ⟨-, e⟩ | ⟨-, e⟩ <;> rw [e]
  · exact hdone k _ h
  · exact hwait _ h
  · exact hstop _ h

/-! ### printString -/

/-- One word of a string, at an address other than the status word (R173, R175). -/
theorem printString_plain {a : Word} (h : a ≠ Config.kbsrAddr) (chars : Word → List Byte) (more : Word → Service)
    (fuel : Nat) (s : State) :
    printString chars more (fuel + 1) a s =
      if s.mem.read a = 0x0000 then s.serviceDone
      else printString chars more fuel (a + 1) (s.writeChars (chars (s.mem.read a))) := by
  simp only [printString, memRead_plain h]

/-- The words of a string, none of them zero or the status word: their characters are written and the loop goes on at the
address after them (R173, R175). -/
theorem printString_words (chars : Word → List Byte) (more : Word → Service) (fuel : Nat) (ws : List Word) (a : Word)
    (s : State) (h : ∀ (j : Nat) (w : Word), ws[j]? = some w →
      w ≠ 0 ∧ a + BitVec.ofNat 16 j ≠ Config.kbsrAddr ∧ s.mem.read (a + BitVec.ofNat 16 j) = w) :
    printString chars more (ws.length + fuel) a s =
      printString chars more fuel (a + BitVec.ofNat 16 ws.length) (s.writeChars (ws.flatMap chars)) := by
  induction ws generalizing a s with
  | nil => simp [State.writeChars]
  | cons w ws ih =>
    obtain ⟨hw, ha, hr⟩ := h 0 w rfl
    have next : ∀ j : Nat, a + 1 + BitVec.ofNat 16 j = a + BitVec.ofNat 16 (j + 1) := fun j => by
      rw [BitVec.ofNat_add, BitVec.add_assoc, BitVec.add_comm 1]; rfl
    simp only [BitVec.add_zero] at ha hr
    rw [List.length_cons, Nat.add_right_comm, printString_plain ha, hr, if_neg hw, ih, next]
    · simp [State.writeChars]
    · intro j v hj
      rw [next]
      exact h (j + 1) v hj

/-- The string loop keeps every property that its five moves keep: a poll with a key, a poll without one, a poll that
halts, writing characters, and leaving or staying in the service. -/
theorem printString_induction {P : State → Prop} (chars : Word → List Byte) (more : Word → Service)
    (hkey : ∀ k t, P t → P { t.afterCall with mem := polledMem k t.mem })
    (hnone : ∀ t, P t → P { t.afterCall with mem := t.mem.write Config.kbsrAddr Config.kbsrIdle })
    (hstop : ∀ t, P t → P (t.afterCall.halt .hostInterrupt))
    (hchars : ∀ w t, P t → P (t.writeChars (chars w)))
    (hdone : ∀ t, P t → P t.serviceDone) (hmore : ∀ a t, P t → P (t.serviceAt (more a)))
    (fuel : Nat) (a : Word) (s : State) (h : P s) : P (printString chars more fuel a s) := by
  induction fuel generalizing a s with
  | zero => exact hmore a s h
  | succ n ih =>
    simp only [printString]
    split
    · rename_i t ht
      obtain ⟨-, -, rfl⟩ := memRead_stopped ht
      exact hstop s h
    · rename_i w t ht
      have hP : P t := by
        rcases memRead_value ht with ⟨-, -, rfl⟩ | ⟨-, -, ⟨k, -, rfl⟩ | ⟨-, rfl⟩⟩
        · exact h
        · exact hkey k s h
        · exact hnone s h
      split
      · exact hdone t hP
      · exact ih _ _ (hchars w t hP)

end Sys2Proof.Machine
end

