-- ==== Sys2Proof/Laws/PerInstr.lean ====
section
/-! SUPPORT. Statements about every instruction as syntax, one lemma for each constructor. -/

namespace Sys2Proof.Laws.TableRow

/-- The word of an instruction is of the instruction's row of the opcode table. -/
def Statement (i : Instr) : Prop := (tableRow i).covers (encode i) = true

theorem covers_of_eq {r : Row} {w : Word} (h : w &&& r.mask = r.pattern) : r.covers w = true := by
  unfold Row.covers
  rw [h]
  exact beq_self_eq_true _

theorem covers_opcode {w : Word} {o : BitVec 4} (h : fieldOpcode w = o) :
    Row.covers ⟨o ++ 0#12, 0xF000⟩ w = true :=
  covers_of_eq ((mask_opcode w).trans (by rw [h]))

theorem covers_opr {w : Word} {o : BitVec 4} {m : Bool} (h : fieldOpcode w = o) (hm : fieldImmMode w = m) :
    Row.covers ⟨o ++ 0#6 ++ BitVec.ofBool m ++ 0#5, 0xF020⟩ w = true :=
  covers_of_eq ((mask_opr w).trans (by rw [h, hm]))

theorem covers_jsr {w : Word} {o : BitVec 4} {m : Bool} (h : fieldOpcode w = o) (hm : fieldJsrMode w = m) :
    Row.covers ⟨o ++ BitVec.ofBool m ++ 0#11, 0xF800⟩ w = true :=
  covers_of_eq ((mask_jsr w).trans (by rw [h, hm]))

theorem covers_jmp {w : Word} {o : BitVec 4} {r : Reg} (h : fieldOpcode w = o) (hr : fieldSr1 w = r) :
    Row.covers ⟨o ++ 0#3 ++ r.bits ++ 0#6, 0xF1C0⟩ w = true :=
  covers_of_eq ((mask_jmp w).trans (by rw [h, hr]))

theorem covers_trap {w : Word} {o : BitVec 4} {v : Byte} (h : fieldOpcode w = o) (hv : fieldTrapVect8 w = v) :
    Row.covers ⟨o ++ 0#4 ++ v, 0xF0FF⟩ w = true :=
  covers_of_eq ((mask_trap w).trans (by rw [h, hv]))

theorem covers_br {w : Word} {o : BitVec 4} {n z p : Bool} (h : fieldOpcode w = o) (hm : fieldNzp w = (n, z, p)) :
    Row.covers ⟨o ++ BitVec.ofBool n ++ BitVec.ofBool z ++ BitVec.ofBool p ++ 0#9, 0xFE00⟩ w = true :=
  covers_of_eq ((mask_br w).trans (by rw [h, hm]))

theorem br (n : Bool) (z : Bool) (p : Bool) (off : BitVec 9) : Statement (.br n z p off) :=
  covers_opcode (fieldOpcode_encodeBr n z p off)

theorem addReg (dr : Reg) (sr1 : Reg) (sr2 : Reg) : Statement (.addReg dr sr1 sr2) :=
  covers_opr (fieldOpcode_encodeOprR .add dr sr1 sr2) (fieldImmMode_encodeOprR .add dr sr1 sr2)

theorem addImm (dr : Reg) (sr1 : Reg) (imm5 : BitVec 5) : Statement (.addImm dr sr1 imm5) :=
  covers_opr (fieldOpcode_encodeOprI .add dr sr1 imm5) (fieldImmMode_encodeOprI .add dr sr1 imm5)

theorem ld (dr : Reg) (off : BitVec 9) : Statement (.ld dr off) :=
  covers_opcode (fieldOpcode_encodePcRel .ld dr off)

theorem st (sr : Reg) (off : BitVec 9) : Statement (.st sr off) :=
  covers_opcode (fieldOpcode_encodePcRel .st sr off)

theorem jsr (off : BitVec 11) : Statement (.jsr off) :=
  covers_jsr (fieldOpcode_encodeJsr off) (fieldJsrMode_encodeJsr off)

theorem jsrr (base : Reg) : Statement (.jsrr base) :=
  covers_jsr (fieldOpcode_encodeJsrr base) (fieldJsrMode_encodeJsrr base)

theorem andReg (dr : Reg) (sr1 : Reg) (sr2 : Reg) : Statement (.andReg dr sr1 sr2) :=
  covers_opr (fieldOpcode_encodeOprR .and dr sr1 sr2) (fieldImmMode_encodeOprR .and dr sr1 sr2)

theorem andImm (dr : Reg) (sr1 : Reg) (imm5 : BitVec 5) : Statement (.andImm dr sr1 imm5) :=
  covers_opr (fieldOpcode_encodeOprI .and dr sr1 imm5) (fieldImmMode_encodeOprI .and dr sr1 imm5)

theorem ldr (dr : Reg) (base : Reg) (off : BitVec 6) : Statement (.ldr dr base off) :=
  covers_opcode (fieldOpcode_encodeBase .ldr dr base off)

theorem str (sr : Reg) (base : Reg) (off : BitVec 6) : Statement (.str sr base off) :=
  covers_opcode (fieldOpcode_encodeBase .str sr base off)

theorem rti (ignored : BitVec 12) : Statement (.rti ignored) :=
  covers_opcode (fieldOpcode_encodeRsv .rti ignored)

theorem not (dr : Reg) (sr : Reg) : Statement (.not dr sr) :=
  covers_opcode (fieldOpcode_encodeNot dr sr)

theorem ldi (dr : Reg) (off : BitVec 9) : Statement (.ldi dr off) :=
  covers_opcode (fieldOpcode_encodePcRel .ldi dr off)

theorem sti (sr : Reg) (off : BitVec 9) : Statement (.sti sr off) :=
  covers_opcode (fieldOpcode_encodePcRel .sti sr off)

theorem jmp (base : Reg) : Statement (.jmp base) :=
  covers_opcode (fieldOpcode_encodeJmp base)

theorem res (ignored : BitVec 12) : Statement (.res ignored) :=
  covers_opcode (fieldOpcode_encodeRsv .res ignored)

theorem lea (dr : Reg) (off : BitVec 9) : Statement (.lea dr off) :=
  covers_opcode (fieldOpcode_encodePcRel .lea dr off)

theorem trap (v : Byte) : Statement (.trap v) :=
  covers_opcode (fieldOpcode_encodeTrap v)

theorem ret : Statement (.ret) :=
  covers_jmp (fieldOpcode_encodeJmp .r7) (fieldSr1_encodeJmp .r7)

theorem nop (off : BitVec 9) : Statement (.nop off) :=
  covers_br (fieldOpcode_encodeBr false false false off) (fieldNzp_encodeBr false false false off)

theorem getc : Statement (.getc) :=
  covers_trap (fieldOpcode_encodeTrap TrapName.getc.vector) (fieldTrapVect8_encodeTrap TrapName.getc.vector)

theorem out : Statement (.out) :=
  covers_trap (fieldOpcode_encodeTrap TrapName.out.vector) (fieldTrapVect8_encodeTrap TrapName.out.vector)

theorem puts : Statement (.puts) :=
  covers_trap (fieldOpcode_encodeTrap TrapName.puts.vector) (fieldTrapVect8_encodeTrap TrapName.puts.vector)

theorem inKey : Statement (.inKey) :=
  covers_trap (fieldOpcode_encodeTrap TrapName.inKey.vector) (fieldTrapVect8_encodeTrap TrapName.inKey.vector)

theorem putsp : Statement (.putsp) :=
  covers_trap (fieldOpcode_encodeTrap TrapName.putsp.vector) (fieldTrapVect8_encodeTrap TrapName.putsp.vector)

theorem halt : Statement (.halt) :=
  covers_trap (fieldOpcode_encodeTrap TrapName.halt.vector) (fieldTrapVect8_encodeTrap TrapName.halt.vector)

end Sys2Proof.Laws.TableRow
end

