-- ==== Sys2Proof/Laws/Step.lean ====
section
/-! SUPPORT. What one step can do, said once. -/

namespace Sys2Proof.Machine

/-- A cycle runs the decoded word at the advanced pc, or is cut at its own fetch (R111, R206). -/
theorem cycle_cases {s t : State} (h : cycle s = .next t) :
    (∃ w u, memRead s.pc s = .value w u ∧ exec (decode w) u.advancePc = .next t) ∨
    (∃ u, memRead s.pc s = .stopped u ∧ t = u.advancePc) := by
  unfold cycle at h
  split at h
  · rename_i w u hr
    exact .inl ⟨w, u, hr, h⟩
  · rename_i u hr
    exact .inr ⟨u, hr, by cases h; rfl⟩

/-- The four things a step can do: nothing (stopped), go on with a service, take the host interrupt, or run a cycle. -/
theorem step_cases {s t : State} (h : step s = .next t) :
    (s.run ≠ .running ∧ t = s) ∨
    (s.run = .running ∧ ∃ v, s.service = some v ∧ t = continueService v s) ∨
    (s.run = .running ∧ s.service = none ∧ s.hostStop = some 0 ∧ t = s.halt .hostInterrupt) ∨
    (s.run = .running ∧ s.service = none ∧
      ∃ hs, cycle { s with hostStop := hs } = .next t ∧
        (s.hostStop = none ∧ hs = none ∨ ∃ n, s.hostStop = some (n + 1) ∧ hs = some n)) := by
  unfold step stepOnce at h
  split at h
  · rename_i hr
    exact .inl ⟨by simp [hr], by cases h; rfl⟩
  · rename_i hr
    exact .inl ⟨by simp [hr], by cases h; rfl⟩
  · rename_i hr
    split at h
    · rename_i v hv
      exact .inr (.inl ⟨hr, v, hv, by cases h; rfl⟩)
    · rename_i hv
      unfold boundary at h
      split at h
      · rename_i h0
        exact .inr (.inr (.inl ⟨hr, hv, h0, by cases h; rfl⟩))
      · rename_i n hn
        exact .inr (.inr (.inr ⟨hr, hv, some n, h, .inr ⟨n, hn, rfl⟩⟩))
      · rename_i hn
        refine .inr (.inr (.inr ⟨hr, hv, none, ?_, .inl ⟨hn, rfl⟩⟩))
        rw [← hn]
        exact h

end Sys2Proof.Machine
end

