-- ==== Sys2Proof/Tests/Slice0.lean ====
section
/-! SUPPORT. Tests: well-formedness refused, every constructor's decoding, single steps and images from
95_test_vectors.md (the vector's id stands before each), and a witness for the hypotheses of every statement. -/

namespace Sys2Proof.Tests
open Sys2Proof Sys2Proof.Machine

/-! ### Helpers -/

/-- The state before a vector's step: pc 0x3000 unless changed, and only the listed memory words are not zero. -/
def before (regs : RegFile) (cond : Word) (mem : Memory) : State :=
  { State.reset with regs := regs, cond := cond, mem := mem }

/-- A state whose host answers the next call of the keyboard port with `a`. -/
def answering (a : KbdAnswer) (s : State) : State := { s with kbd := ⟨[a], 0⟩ }

/-- What a test looks at in the next state; a fault or a refusal would be none. -/
def after {α : Type} (look : State → α) (s : State) : Option α :=
  match step s with
  | .next t => some (look t)
  | .fault _ => none
  | .refused _ => none

/-- All general registers zero. -/
def zeros : RegFile := State.reset.regs

/-! ### Ill-formed terms are refused (one for each check of WellFormed.lean) -/

theorem test_wellformed_br_mask_000 : (Instr.br false false false 3).wellFormed = false := by decide

theorem test_wellformed_jmp_r7 : (Instr.jmp .r7).wellFormed = false := by decide

theorem test_wellformed_trap_service_vectors :
    (Instr.trap 0x20).wellFormed = false ∧ (Instr.trap 0x25).wellFormed = false := by decide

theorem test_wellformed_trap_boundary_vectors :
    (Instr.trap 0x1F).wellFormed = true ∧ (Instr.trap 0x26).wellFormed = true := by decide

/-! ### A written-out word for every constructor (30_encoding.md R82 to R85) -/

theorem test_decode_operate :
    decode 0b0001_101_110_0_00_111 = .addReg .r5 .r6 .r7 ∧ decode 0b0001_101_110_1_10000 = .addImm .r5 .r6 0x10 ∧
    decode 0b0101_000_001_0_00_010 = .andReg .r0 .r1 .r2 ∧ decode 0b0101_111_010_1_01010 = .andImm .r7 .r2 0x0A ∧
    decode 0b1001_001_100_111111 = .not .r1 .r4 := by decide

theorem test_decode_control :
    decode 0b0000_100_000000001 = .br true false false 1 ∧ decode 0b0000_001_100000000 = .br false false true 0x100 ∧
    decode 0b0000_000_000000101 = .nop 5 ∧ decode 0b1100_000_110_000000 = .jmp .r6 ∧
    decode 0b1100_000_111_000000 = .ret ∧ decode 0b0100_1_10000000001 = .jsr 0x401 ∧
    decode 0b0100_0_00_111_000000 = .jsrr .r7 := by decide

theorem test_decode_load :
    decode 0b0010_110_011111111 = .ld .r6 0x0FF ∧ decode 0b1010_011_000000010 = .ldi .r3 2 ∧
    decode 0b0110_001_010_100000 = .ldr .r1 .r2 0x20 ∧ decode 0b1110_111_111111111 = .lea .r7 0x1FF := by decide

theorem test_decode_store :
    decode 0b0011_100_000000111 = .st .r4 7 ∧ decode 0b1011_101_100000001 = .sti .r5 0x101 ∧
    decode 0b0111_011_001_000010 = .str .r3 .r1 2 := by decide

theorem test_decode_trap :
    decode 0b1111_0000_00100000 = .getc ∧ decode 0b1111_0000_00100001 = .out ∧ decode 0b1111_0000_00100010 = .puts ∧
    decode 0b1111_0000_00100011 = .inKey ∧ decode 0b1111_0000_00100100 = .putsp ∧
    decode 0b1111_0000_00100101 = .halt ∧ decode 0b1111_0000_00011111 = .trap 0x1F ∧
    decode 0b1111_0000_00100110 = .trap 0x26 := by decide

theorem test_decode_reserved :
    decode 0b1000_111111111111 = .rti 0xFFF ∧ decode 0b1101_000000000001 = .res 1 := by decide

/-- The host's way in: the same words by their number. -/
theorem test_decodeTableWord :
    decodeTableWord 16 0x1042 = some (.addReg .r0 .r1 .r2) ∧ decodeTableWord 16 0xF025 = some .halt ∧
    decodeTableWord 16 0xC1C0 = some .ret := by decide

/-! ### Sign extension and flags (2.1, S1, S2, S4) -/

theorem test_sext_table :
    sext (0x1F : BitVec 5) = 0xFFFF ∧ sext (0x0F : BitVec 5) = 0x000F ∧ sext (0x10 : BitVec 5) = 0xFFF0 ∧
    sext (0x20 : BitVec 6) = 0xFFE0 ∧ sext (0x1F : BitVec 6) = 0x001F ∧ sext (0x100 : BitVec 9) = 0xFF00 ∧
    sext (0x0FF : BitVec 9) = 0x00FF ∧ sext (0x400 : BitVec 11) = 0xFC00 ∧ sext (0x3FF : BitVec 11) = 0x03FF := by
  decide

theorem test_flags_table :
    flags 0x0000 = 2 ∧ flags 0x0001 = 1 ∧ flags 0x7FFF = 1 ∧ flags 0x8000 = 4 ∧ flags 0xFFFF = 4 := by decide

/-! ### Operate -/

-- S5
theorem test_add_reg : after (fun t => (t.regs, t.cond, t.pc)) (before ⟨0, 3, 4, 0, 0, 0, 0, 0⟩ 2 [(0x3000, 0x1042)]) =
    some (⟨7, 3, 4, 0, 0, 0, 0, 0⟩, 1, 0x3001) := by decide

-- A2
theorem test_add_reg_wraps : after (fun t => (t.regs.r0, t.cond))
    (before ⟨9, 0x8000, 0x8000, 0, 0, 0, 0, 0⟩ 4 [(0x3000, 0x1042)]) = some (0, 2) := by decide

-- A3
theorem test_add_imm_negative : after (fun t => (t.regs.r1, t.cond)) (before zeros 2 [(0x3000, 0x127F)]) =
    some (0xFFFF, 4) := by decide

-- A4
theorem test_add_imm_min : after (fun t => (t.regs.r1, t.cond))
    (before ⟨0, 0x10, 0, 0, 0, 0, 0, 0⟩ 1 [(0x3000, 0x1270)]) = some (0, 2) := by decide

-- A8
theorem test_and_reg : after (fun t => (t.regs.r3, t.cond))
    (before ⟨0, 0, 0, 0, 0xF0F0, 0xFF00, 0, 0⟩ 2 [(0x3000, 0x5705)]) = some (0xF000, 4) := by decide

-- A12
theorem test_and_imm : after (fun t => (t.regs.r1, t.cond))
    (before ⟨0, 0, 0x1234, 0, 0, 0, 0, 0⟩ 2 [(0x3000, 0x52B0)]) = some (0x1230, 1) := by decide

-- A13
theorem test_not : after (fun t => (t.regs.r2, t.regs.r3, t.cond))
    (before ⟨0, 0, 0, 0x00FF, 0, 0, 0, 0⟩ 2 [(0x3000, 0x94FF)]) = some (0xFF00, 0x00FF, 4) := by decide

-- A14
theorem test_not_same_register : after (fun t => (t.regs.r1, t.cond))
    (before ⟨0, 0xFFFF, 0, 0, 0, 0, 0, 0⟩ 4 [(0x3000, 0x927F)]) = some (0, 2) := by decide

/-! ### Control -/

-- B1, B2, B3
theorem test_brz : [4, 2, 1].map (fun c => after (fun t => (t.pc, t.cond)) (before zeros c [(0x3000, 0x0403)])) =
    [some (0x3001, 4), some (0x3004, 2), some (0x3001, 1)] := by decide

-- B12
theorem test_br_wraps : after (fun t => t.pc) { before zeros 1 [(0xFFFF, 0x0FFF)] with pc := 0xFFFF } = some 0xFFFF := by
  decide

-- B9
theorem test_nop : after (fun t => (t.pc, t.cond)) (before zeros 4 [(0x3000, 0x01FF)]) = some (0x3001, 4) := by decide

-- B15
theorem test_jmp : after (fun t => (t.pc, t.regs.r7)) (before ⟨0, 0, 0, 0x4000, 0, 0, 0, 0⟩ 2 [(0x3000, 0xC0C0)]) =
    some (0x4000, 0) := by decide

-- B17
theorem test_ret : after (fun t => t.pc) { before ⟨0, 0, 0, 0, 0, 0, 0, 0x3005⟩ 2 [(0x4000, 0xC1C0)] with pc := 0x4000 } =
    some 0x3005 := by decide

-- B19
theorem test_jsr : after (fun t => (t.regs.r7, t.pc)) (before zeros 2 [(0x3000, 0x4C00)]) = some (0x3001, 0x2C01) := by
  decide

-- B22
theorem test_jsrr : after (fun t => (t.regs.r7, t.pc)) (before ⟨0, 0, 0x5000, 0, 0, 0, 0, 0⟩ 2 [(0x3000, 0x4080)]) =
    some (0x3001, 0x5000) := by decide

-- B23
theorem test_jsrr_r7 : after (fun t => (t.regs.r7, t.pc)) (before ⟨0, 0, 0, 0, 0, 0, 0, 0x5000⟩ 2 [(0x3000, 0x41C0)]) =
    some (0x3001, 0x3001) := by decide

/-! ### Loads -/

-- L1
theorem test_ld : after (fun t => (t.regs.r1, t.cond, t.pc)) (before zeros 2 [(0x3000, 0x2202), (0x3003, 0x8001)]) =
    some (0x8001, 4, 0x3001) := by decide

-- L6
theorem test_ld_wraps : after (fun t => (t.regs.r5, t.cond, t.pc))
    { before zeros 2 [(0x0001, 0x7777), (0xFFFF, 0x2A01)] with pc := 0xFFFF } = some (0x7777, 1, 0) := by decide

-- L8
theorem test_ldi : after (fun t => (t.regs.r0, t.cond))
    (before zeros 2 [(0x3000, 0xA010), (0x3011, 0x4000), (0x4000, 0x002A)]) = some (0x002A, 1) := by decide

-- L13
theorem test_ldr_wraps : after (fun t => (t.regs.r1, t.cond))
    (before ⟨0, 0, 0x0010, 0, 0, 0, 0, 0⟩ 2 [(0x3000, 0x62A0), (0xFFF0, 0x8000)]) = some (0x8000, 4) := by decide

-- L20
theorem test_ldr_polls : after (fun t => (t.regs.r1, t.cond, t.mem))
    (answering (.key 0x0061) (before ⟨0, 0, 0xFE01, 0, 0, 0, 0, 0⟩ 2 [(0x3000, 0x62BF)])) =
    some (0x8000, 4, [(0x3000, 0x62BF), (0xFE00, 0x8000), (0xFE02, 0x0061)]) := by decide

-- L15
theorem test_lea : after (fun t => (t.regs.r0, t.cond)) (before zeros 2 [(0x3000, 0xE002)]) = some (0x3003, 1) := by
  decide

-- L18
theorem test_lea_wraps : after (fun t => (t.regs.r0, t.cond, t.pc)) { before zeros 1 [(0xFFFF, 0xE1FF)] with pc := 0xFFFF } =
    some (0xFFFF, 4, 0) := by decide

/-! ### Stores -/

-- T1
theorem test_st : after (fun t => (t.mem, t.cond)) (before ⟨0, 0, 0, 0xBEEF, 0, 0, 0, 0⟩ 1 [(0x3000, 0x3605)]) =
    some ([(0x3000, 0x3605), (0x3006, 0xBEEF)], 1) := by decide

-- T2
theorem test_st_over_itself : after (fun t => t.mem) (before ⟨0x1234, 0, 0, 0, 0, 0, 0, 0⟩ 2 [(0x3000, 0x31FF)]) =
    some [(0x3000, 0x1234)] := by decide

-- T4
theorem test_sti : after (fun t => (t.mem, t.cond))
    (before ⟨0, 0, 0x00AA, 0, 0, 0, 0, 0⟩ 4 [(0x3000, 0xB404), (0x3005, 0x5000)]) =
    some ([(0x3000, 0xB404), (0x3005, 0x5000), (0x5000, 0x00AA)], 4) := by decide

-- T10
theorem test_sti_to_the_status_word : after (fun t => (t.mem.read 0xFE00, t.kbd))
    (before ⟨0, 0x0055, 0, 0, 0, 0, 0, 0⟩ 2 [(0x3000, 0xB201), (0x3002, 0xFE00)]) = some (0x0055, ⟨[], 0⟩) := by decide

-- T6
theorem test_str : after (fun t => t.mem.read 0x4000) (before ⟨0, 0x0777, 0, 0, 0, 0, 0x4002, 0⟩ 2 [(0x3000, 0x73BE)]) =
    some 0x0777 := by decide

-- T7
theorem test_str_top_of_memory : after (fun t => t.mem) (before ⟨1, 0xFFFF, 0, 0, 0, 0, 0, 0⟩ 2 [(0x3000, 0x7040)]) =
    some [(0x3000, 0x7040), (0xFFFF, 1)] := by decide

/-! ### TRAP and the services -/

-- V1
theorem test_getc : after (fun t => (t.regs.r0, t.cond, t.console, t.pc))
    (answering (.key 0x0041) (before ⟨0xFFFF, 0, 0, 0, 0, 0, 0, 0⟩ 4 [(0x3000, 0xF020)])) =
    some (0x0041, 4, [], 0x3001) := by decide

-- V3
theorem test_getc_interrupt : after (fun t => (t.run, t.regs.r0, t.pc))
    (answering .interrupt (before ⟨0x7777, 0, 0, 0, 0, 0, 0, 0⟩ 4 [(0x3000, 0xF020)])) =
    some (.halted .hostInterrupt, 0x7777, 0x3001) := by decide

-- V4
theorem test_out : after (fun t => (t.console, t.pc)) (before ⟨0x1241, 0, 0, 0, 0, 0, 0, 0⟩ 2 [(0x3000, 0xF021)]) =
    some ([0x41], 0x3001) := by decide

-- V7
theorem test_puts : after (fun t => (t.console, t.regs.r0, t.service))
    (before ⟨0x3010, 0, 0, 0, 0, 0, 0, 0⟩ 2 [(0x3000, 0xF022), (0x3010, 0x0148), (0x3011, 0x0100)]) =
    some ([0x48, 0x00], 0x3010, none) := by decide

-- V8
theorem test_puts_wraps : after (fun t => t.console)
    (before ⟨0xFFFF, 0, 0, 0, 0, 0, 0, 0⟩ 2 [(0, 0x42), (0x3000, 0xF022), (0xFFFF, 0x41)]) = some [0x41, 0x42] := by
  decide

-- V9
theorem test_in : after (fun t => (t.console, t.regs.r0, t.cond))
    (answering (.key 0x0061) (before zeros 4 [(0x3000, 0xF023)])) =
    some ([] ++ Config.inPrompt ++ [0x61], 0x0061, 4) := by rfl

-- V10
theorem test_in_interrupt : after (fun t => (t.console, t.regs.r0, t.run))
    (answering .interrupt (before ⟨0x7777, 0, 0, 0, 0, 0, 0, 0⟩ 4 [(0x3000, 0xF023)])) =
    some ([] ++ Config.inPrompt, 0x7777, .halted .hostInterrupt) := by rfl

-- V11
theorem test_putsp : after (fun t => t.console)
    (before ⟨0x3020, 0, 0, 0, 0, 0, 0, 0⟩ 2 [(0x3000, 0xF024), (0x3020, 0x6948), (0x3021, 0x0021)]) =
    some [0x48, 0x69, 0x21] := by decide

-- V12
theorem test_putsp_low_byte_zero : after (fun t => t.console)
    (before ⟨0x3020, 0, 0, 0, 0, 0, 0, 0⟩ 2 [(0x3000, 0xF024), (0x3020, 0x4100)]) = some [0x00, 0x41] := by decide

-- V13
theorem test_halt : step (before ⟨1, 0, 0, 0, 0, 0, 0, 2⟩ 4 [(0x3000, 0xF025)]) =
    .next { before ⟨1, 0, 0, 0, 0, 0, 0, 2⟩ 4 [(0x3000, 0xF025)] with pc := 0x3001, run := .halted .trapHalt } := by rfl

-- V16, V17
theorem test_trap_unknown : [0xF026, 0xF01F].map (fun w => after (fun t => (t.run, t.pc)) (before zeros 2 [(0x3000, w)])) =
    [some (.faulted (.unknownTrapVector 0x26), 0x3001), some (.faulted (.unknownTrapVector 0x1F), 0x3001)] := by decide

-- X1
theorem test_rti : step (before ⟨0, 0, 0, 0, 0, 0, 0x1234, 0⟩ 1 [(0x3000, 0x8000)]) =
    .next { before ⟨0, 0, 0, 0, 0, 0, 0x1234, 0⟩ 1 [(0x3000, 0x8000)] with
      pc := 0x3001, diag := [.reservedOpcode 0x8000 0x3001] } := by rfl

-- X4
theorem test_res : after (fun t => (t.pc, t.run, t.regs)) { before zeros 2 [(0x4000, 0xD123)] with pc := 0x4000 } =
    some (0x4001, .running, zeros) := by decide

/-! ### The load port and memory -/

-- S10, I7
theorem test_load : load [0x30, 0x00, 0x12, 0x34, 0x56, 0x78] [] = .ok [(0x3000, 0x1234), (0x3001, 0x5678)] ∧
    load [0xFF, 0xFF, 0x00, 0x01, 0x00, 0x02] [] = .ok [(0x0000, 2), (0xFFFF, 1)] := by constructor <;> rfl

-- I1, I2, I4, I6
theorem test_load_short_and_odd : load [] [] = .error .truncated ∧ load [0x30] [] = .error .truncated ∧
    load [0x30, 0x00, 0x12] [] = .ok [] ∧ load [0x30, 0x00, 0x12, 0x34, 0x56] [] = .ok [(0x3000, 0x1234)] := by
  refine ⟨?_, ?_, ?_, ?_⟩ <;> rfl

/-- Writing what an unlisted address reads as removes the entry. -/
theorem test_memory_canonical : (Memory.write [(0x3000, 1), (0x3001, 2)] 0x3000 0) = [(0x3001, 2)] ∧
    Memory.wf State.reset.mem := by decide

/-- A word placed by the host is the one fetched (assumption 12). -/
theorem test_withFetchWord : after (fun t => (t.regs.r1, t.pc)) (State.reset.withFetchWord 16 0x126F) =
    some (15, 0x3001) := by decide

/-! ### Witnesses: states and operands that meet the hypotheses of each statement, clause by clause -/

/-- RUNNING at a cycle boundary, with nothing but the word at pc listed. -/
def fetching (w : Word) : State := State.reset.withFetchWord 16 w.toNat

/-- A word in an ordinary canonical memory, for the statements with `Memory.wf`. -/
def stored : Memory := [(0x3000, 0x1021), (0xFE00, 0x8000), (0xFE02, 0x61)]

theorem witness_DecodeEncodeRoundTrip :
    (Instr.br true true true 0x1FF).wellFormed = true ∧ (Instr.jmp .r0).wellFormed = true ∧
    (Instr.trap 0x1F).wellFormed = true ∧ (Instr.trap 0x26).wellFormed = true := by decide

theorem witness_UncoveredBitsAreIgnored :
    (fieldOpcode 0x1042 = Opcode.add.bits ∧ fieldImmMode 0x1042 = false) ∧
    (fieldOpcode 0x5705 = Opcode.and.bits ∧ fieldImmMode 0x5705 = false) ∧ fieldOpcode 0x94FF = Opcode.not.bits ∧
    fieldOpcode 0xC0C0 = Opcode.jmp.bits ∧ (fieldOpcode 0x4080 = Opcode.jsr.bits ∧ fieldJsrMode 0x4080 = false) ∧
    fieldOpcode 0xF025 = Opcode.trap.bits := by decide

/-- The first index past COND. -/
theorem witness_RegisterFileContract : 9 < 10 := by decide

theorem witness_FlagCalculatorPartition :
    (Instr.addImm .r1 .r1 1).setsCond = true ∧ (Instr.addImm .r1 .r1 1).destinations = [.r1] ∧
    State.reset.run = .running ∧ ∃ t, exec (.addImm .r1 .r1 1) State.reset = .next t ∧ t.run = .running :=
  ⟨rfl, rfl, rfl, _, rfl, rfl⟩

/-- The widths at the two ends and one of the source's. -/
theorem witness_SignExtensionIsTwosComplement : (0 < 1 ∧ 1 ≤ 16) ∧ (0 < 5 ∧ 5 ≤ 16) ∧ (0 < 16 ∧ 16 ≤ 16) := by decide

theorem witness_AddWritesTheSum :
    (fieldOpcode 0x1042 = Opcode.add.bits ∧ (0x1042 : Word).getLsbD 5 = false) ∧
    (fieldOpcode 0x127F = Opcode.add.bits ∧ (0x127F : Word).getLsbD 5 = true) := by decide

theorem witness_AndWritesTheConjunction :
    (fieldOpcode 0x5705 = Opcode.and.bits ∧ (0x5705 : Word).getLsbD 5 = false) ∧
    (fieldOpcode 0x5020 = Opcode.and.bits ∧ (0x5020 : Word).getLsbD 5 = true) := by decide

theorem witness_NotWritesTheComplement : fieldOpcode 0x94FF = Opcode.not.bits := by decide

/-- BRz with an offset, BR with mask 000 and all offset bits set, and each legal COND. -/
theorem witness_BranchTestsTheFlag :
    fieldOpcode 0x0403 = Opcode.br.bits ∧ fieldOpcode 0x01FF = Opcode.br.bits ∧
    condLegal (before zeros 1 []).cond = true ∧ condLegal (before zeros 2 []).cond = true ∧
    condLegal (before zeros 4 []).cond = true := by decide

theorem witness_BranchIgnoresHighCondBits : (0x8002 : Word) &&& 0x0007 = (before zeros 2 []).cond &&& 0x0007 := by decide

theorem witness_JumpGoesToTheRegister :
    fieldOpcode 0xC0C0 = Opcode.jmp.bits ∧ fieldOpcode 0xC1C0 = Opcode.jmp.bits := by decide

theorem witness_JsrLinksAndJumps : fieldOpcode 0x4805 = Opcode.jsr.bits ∧ (0x4805 : Word).getLsbD 11 = true := by decide

theorem witness_JsrrLinksThenReadsTheBase :
    fieldOpcode 0x4080 = Opcode.jsr.bits ∧ (0x4080 : Word).getLsbD 11 = false := by decide

/-- Both calls, the state of the RET being the one after the call. -/
theorem witness_CallThenReturnComesBack :
    (∃ t u : State, exec (.jsr 5) State.reset = .next t ∧ u.reg .r7 = t.reg .r7) ∧
    ∃ t u : State, exec (.jsrr .r7) State.reset = .next t ∧ u.reg .r7 = t.reg .r7 :=
  ⟨⟨_, _, rfl, rfl⟩, ⟨_, _, rfl, rfl⟩⟩

theorem witness_WriteIsAPlainStore : Memory.wf (before zeros 2 stored).mem := by decide

/-- The neighbours of the status word, and the two ends of memory. -/
theorem witness_OrdinaryReadHasNoEffect :
    [0xFDFF, 0xFE01, 0xFE02, 0x0000, 0xFFFF].all (fun a => decide (a ≠ Config.kbsrAddr)) = true ∧
    Memory.wf (before zeros 2 stored).mem := by decide

/-- One state for each answer of the host. -/
theorem witness_StatusReadPollsTheKeyboard :
    Memory.wf (before zeros 2 stored).mem ∧ (answering (.key 0xFFFF) State.reset).kbd.answer = .key 0xFFFF ∧
    (answering .noKey State.reset).kbd.answer = .noKey ∧
    (answering .interrupt State.reset).kbd.answer = .interrupt := by decide

theorem witness_LoadsReadThroughMemRead :
    (fieldOpcode 0x2202 = Opcode.ld.bits ∧ fieldOpcode 0x697F = Opcode.ldr.bits ∧ fieldOpcode 0xA010 = Opcode.ldi.bits) ∧
    (∃ t v, memRead ((before zeros 2 stored).pc + (0 : BitVec 9).signExtend 16) (before zeros 2 stored) = .value v t) ∧
    (∃ t v, memRead ((before zeros 2 stored).reg .r0 + (0x3F : BitVec 6).signExtend 16) (before zeros 2 stored) =
      .value v t) ∧
    ∃ t u ea v, memRead ((before zeros 2 stored).pc + (0 : BitVec 9).signExtend 16) (before zeros 2 stored) = .value ea t ∧
      memRead ea t = .value v u :=
  ⟨by decide, ⟨_, _, rfl⟩, ⟨_, _, rfl⟩, _, _, _, _, rfl, rfl⟩

theorem witness_LeaWritesTheAddress : fieldOpcode 0xE002 = Opcode.lea.bits := by decide

/-- LD, LDR and LDI at addresses next to the status word, the data word among them. -/
theorem witness_LoadsFromOrdinaryWords :
    ({ State.reset with pc := 0xFE00 }.pc + (1 : BitVec 9).signExtend 16 ≠ Config.kbsrAddr) ∧
    ((before ⟨0xFE02, 0, 0, 0, 0, 0, 0, 0⟩ 2 []).reg .r0 + (0 : BitVec 6).signExtend 16 ≠ Config.kbsrAddr) ∧
    ((before zeros 2 stored).pc + (0 : BitVec 9).signExtend 16 ≠ Config.kbsrAddr ∧
      (before zeros 2 stored).mem.read ((before zeros 2 stored).pc + (0 : BitVec 9).signExtend 16) ≠ Config.kbsrAddr) := by
  decide

/-- LD, LDR and LDI that reach the status word, with each answer. -/
theorem witness_LoadsFromTheStatusWordPoll :
    Memory.wf stored ∧ ({ State.reset with pc := 0xFE00, mem := stored }.pc + (0 : BitVec 9).signExtend 16 = Config.kbsrAddr) ∧
    ((before ⟨0xFE01, 0, 0, 0, 0, 0, 0, 0⟩ 2 stored).reg .r0 + (0x3F : BitVec 6).signExtend 16 = Config.kbsrAddr) ∧
    ((before zeros 2 [(0x3001, 0xFE00)]).pc + (1 : BitVec 9).signExtend 16 ≠ Config.kbsrAddr ∧
      (before zeros 2 [(0x3001, 0xFE00)]).mem.read ((before zeros 2 [(0x3001, 0xFE00)]).pc + (1 : BitVec 9).signExtend 16) =
        Config.kbsrAddr) ∧
    (answering (.key 0x61) State.reset).kbd.answer = .key 0x61 ∧ (answering .noKey State.reset).kbd.answer = .noKey ∧
    (answering .interrupt State.reset).kbd.answer = .interrupt := by decide

/-- ST, STR and STI, a store to a device word among them. -/
theorem witness_StoresChangeOneWord :
    fieldOpcode 0x3605 = Opcode.st.bits ∧ fieldOpcode 0x73BE = Opcode.str.bits ∧ fieldOpcode 0xB404 = Opcode.sti.bits ∧
    Memory.wf stored ∧ 0xFE00 = (before ⟨0xFE00, 0, 0, 0, 0, 0, 0, 0⟩ 2 stored).reg .r0 + (0 : BitVec 6).signExtend 16 ∧
    0x3005 = (before zeros 2 stored).pc + (5 : BitVec 9).signExtend 16 ∧
    (before zeros 2 stored).pc + (0 : BitVec 9).signExtend 16 ≠ Config.kbsrAddr ∧
    0x1021 = (before zeros 2 stored).mem.read ((before zeros 2 stored).pc + (0 : BitVec 9).signExtend 16) := by decide

theorem witness_StiThroughTheStatusWord :
    Memory.wf stored ∧ ({ State.reset with pc := 0xFE00, mem := stored }.pc + (0 : BitVec 9).signExtend 16 = Config.kbsrAddr) ∧
    (answering (.key 0x61) State.reset).kbd.answer = .key 0x61 ∧ (answering .noKey State.reset).kbd.answer = .noKey ∧
    (answering .interrupt State.reset).kbd.answer = .interrupt := by decide

theorem witness_StoredWordIsFetchedNext :
    Memory.wf (before zeros 2 stored).mem ∧ (before zeros 2 stored).pc ≠ Config.kbsrAddr ∧
    (before zeros 2 stored).pc = (before zeros 2 stored).pc + (0 : BitVec 9).signExtend 16 ∧
    (before ⟨0x3000, 0, 0, 0, 0, 0, 0, 0⟩ 2 stored).pc =
      (before ⟨0x3000, 0, 0, 0, 0, 0, 0, 0⟩ 2 stored).reg .r0 + (0 : BitVec 6).signExtend 16 ∧
    ∃ t u, exec (.st .r1 0) (before zeros 2 stored) = .next t ∧
      exec (.str .r1 .r0 0) (before ⟨0x3000, 0, 0, 0, 0, 0, 0, 0⟩ 2 stored) = .next u :=
  ⟨by decide, by decide, by decide, by decide, _, _, rfl, rfl⟩

theorem witness_GetcReadsOneKey :
    (answering (.key 0) State.reset).kbd.answer = .key 0 ∧
    (answering .interrupt State.reset).kbd.answer = .interrupt := by decide

theorem witness_InPromptsReadsAndEchoes :
    (answering (.key 0x1261) State.reset).kbd.answer = .key 0x1261 ∧
    (answering .interrupt State.reset).kbd.answer = .interrupt := by decide

theorem witness_OutWritesTheLowByte :
    fieldOpcode 0xF120 = Opcode.trap.bits ∧ (0xF120 : Word).extractLsb' 0 8 = 0x20 ∧
    (0xF021 : Word).extractLsb' 0 8 = 0x21 ∧ (0xF022 : Word).extractLsb' 0 8 = 0x22 ∧
    (0xF023 : Word).extractLsb' 0 8 = 0x23 ∧ (0xF024 : Word).extractLsb' 0 8 = 0x24 := by decide

/-- The empty string, and "Hi" with its zero word in the last word of memory. -/
theorem witness_PutsPrintsTheString :
    (([] : List Word).length < 65536 ∧ State.reset.reg .r0 ≠ Config.kbsrAddr ∧
      State.reset.mem.read (State.reset.reg .r0 + BitVec.ofNat 16 0) = 0) ∧
    ∃ (s : State) (ws : List Word), ws.length = 2 ∧
      (∀ (j : Nat) (w : Word), ws[j]? = some w →
        w ≠ 0 ∧ s.reg .r0 + BitVec.ofNat 16 j ≠ Config.kbsrAddr ∧ s.mem.read (s.reg .r0 + BitVec.ofNat 16 j) = w) ∧
      s.reg .r0 + BitVec.ofNat 16 ws.length ≠ Config.kbsrAddr ∧
      s.mem.read (s.reg .r0 + BitVec.ofNat 16 ws.length) = 0 := by
  refine ⟨by decide, before ⟨0xFFFD, 0, 0, 0, 0, 0, 0, 0⟩ 2 [(0xFFFD, 0x0048), (0xFFFE, 0x0069)], [0x0048, 0x0069],
    rfl, fun j w h => ?_, by decide, by decide⟩
  match j, h with
  | 0, h => cases h; decide
  | 1, h => cases h; decide
  | j + 2, h => simp at h

/-- The same string, as PUTSP reads it. -/
theorem witness_PutspPrintsThePackedString :
    ∃ (s : State) (ws : List Word), ws.length = 1 ∧
      (∀ (j : Nat) (w : Word), ws[j]? = some w →
        w ≠ 0 ∧ s.reg .r0 + BitVec.ofNat 16 j ≠ Config.kbsrAddr ∧ s.mem.read (s.reg .r0 + BitVec.ofNat 16 j) = w) ∧
      s.reg .r0 + BitVec.ofNat 16 ws.length ≠ Config.kbsrAddr ∧
      s.mem.read (s.reg .r0 + BitVec.ofNat 16 ws.length) = 0 := by
  refine ⟨before ⟨0x3020, 0, 0, 0, 0, 0, 0, 0⟩ 2 [(0x3020, 0x6948)], [0x6948], rfl, fun j w h => ?_, by decide, by decide⟩
  match j, h with
  | 0, h => cases h; decide
  | j + 1, h => simp at h

/-- A memory of 65536 words, none of them zero. -/
def noZero : Memory := (List.range 65536).map (fun i => (i, 1))

theorem noZero_wf : Memory.wf noZero := by
  refine ⟨List.pairwise_map.2 List.pairwise_lt_range, fun c hc => ?_⟩
  obtain ⟨i, hi, rfl⟩ := List.mem_map.1 hc
  exact ⟨List.mem_range.1 hi, by show (1 : Word) ≠ Config.unlistedWord; decide⟩

/-- A state at which PUTS or PUTSP begins at `a` by `exec`, and is in progress at `a` for `step`. -/
def reading (packed : Bool) (a : Word) (m : Memory) : State :=
  { before ⟨a, 0, 0, 0, 0, 0, 0, 0⟩ 2 m with service := some (stringService packed a) }

theorem reading_meets (packed : Bool) (a : Word) (m : Memory) :
    (reading packed a m).reg .r0 = a ∧ (reading packed a m).run = .running ∧
      (reading packed a m).service = some (stringService packed a) ∧ (reading packed a m).mem = m := ⟨rfl, rfl, rfl, rfl⟩

/-- One word at the last address, its zero word at the first one; and one word before the status word, with each answer
(with the key, the word after the status word is the zero word). `reading_meets` gives the premise on the service. -/
theorem witness_StepGoesOnWithTheString :
    (∀ a : Word, a = 0xFFFF ∨ a = 0xFDFF → Memory.wf (reading false a [(a.toNat, 0x0148)]).mem ∧
      ∀ (j : Nat) (w : Word), [(0x0148 : Word)][j]? = some w → w ≠ 0 ∧ a + BitVec.ofNat 16 j ≠ Config.kbsrAddr ∧
        (reading false a [(a.toNat, 0x0148)]).mem.read (a + BitVec.ofNat 16 j) = w) ∧
    ((0xFFFF : Word) + BitVec.ofNat 16 1 ≠ Config.kbsrAddr ∧
      (reading false 0xFFFF [(0xFFFF, 0x0148)]).mem.read (0xFFFF + BitVec.ofNat 16 1) = 0) ∧
    (0xFDFF : Word) + BitVec.ofNat 16 1 = Config.kbsrAddr ∧
    (answering .interrupt (reading false 0xFDFF [(0xFDFF, 0x0148)])).kbd.answer = .interrupt ∧
    (answering .noKey (reading false 0xFDFF [(0xFDFF, 0x0148)])).kbd.answer = .noKey ∧
    (answering (.key 0) (reading false 0xFDFF [(0xFDFF, 0x0148)])).kbd.answer = .key 0 ∧
    (polledMem 0 [(0xFDFF, 0x0148)]).read (Config.kbsrAddr + 1 + BitVec.ofNat 16 0) = 0 := by
  refine ⟨fun a ha => ?_, by decide⟩
  refine ⟨by rcases ha with rfl | rfl <;> decide, fun j w h => ?_⟩
  match j, h with
  | 0, h => cases h; rcases ha with rfl | rfl <;> decide
  | j + 1, h => simp at h

/-- A pass that meets no zero word, begun or gone on with at the status word: the memory that the poll with key 1 leaves
holds none. -/
theorem witness_StepGoesOnWithTheString_pass :
    (∀ m, (answering (.key 1) (reading true Config.kbsrAddr m)).kbd.answer = .key 1) ∧ Memory.wf noZero ∧
    ∃ vs : List Word, ([] : List Word).length + 1 + vs.length = 65536 ∧
      ∀ (j : Nat) (w : Word), vs[j]? = some w →
        w ≠ 0 ∧ (polledMem 1 noZero).read (Config.kbsrAddr + 1 + BitVec.ofNat 16 j) = w := by
  have all : ∀ b : Word, noZero.read b = 1 := fun b =>
    Memory.read_mem noZero_wf (List.mem_map.2 ⟨b.toNat, List.mem_range.2 b.isLt, rfl⟩)
  refine ⟨fun _ => rfl, noZero_wf, List.replicate 65535 1, ?_, fun j w h => ?_⟩
  · rw [List.length_replicate, List.length_nil]
  obtain ⟨hj, hw⟩ := List.getElem?_eq_some_iff.1 h
  rw [List.length_replicate] at hj
  rw [List.getElem_replicate] at hw
  subst hw
  refine ⟨by decide, ?_⟩
  have hs : Config.kbsrAddr + 1 + BitVec.ofNat 16 j ≠ Config.kbsrAddr := by
    rw [Config.kbsrAddr]; bv_omega
  by_cases hd : Config.kbsrAddr + 1 + BitVec.ofNat 16 j = Config.kbdrAddr
  · rw [hd, polledMem_data noZero_wf]
  · rw [polledMem_other _ _ hs hd, all]

theorem witness_StringThroughTheStatusWord :
    Memory.wf stored ∧ (before ⟨0xFE00, 0, 0, 0, 0, 0, 0, 0⟩ 2 stored).reg .r0 = Config.kbsrAddr ∧
    Memory.read stored (Config.kbsrAddr + 1) = 0 ∧
    (answering (.key 0x61) State.reset).kbd.answer = .key 0x61 ∧ (answering .noKey State.reset).kbd.answer = .noKey ∧
    (answering .interrupt State.reset).kbd.answer = .interrupt := by decide

theorem witness_HaltStopsTheMachine :
    fieldOpcode 0xF125 = Opcode.trap.bits ∧ (0xF125 : Word).extractLsb' 0 8 = 0x25 := by decide

/-- The last vector below the services and the first above. -/
theorem witness_UnknownVectorFaults : (0x1F : Byte).toNat < 0x20 ∧ 0x25 < (0x26 : Byte).toNat := by decide

/-- One held state for each of the two services, and each answer. -/
theorem witness_BlockedReadHoldsTheCycle :
    (answering .noKey State.reset).kbd.answer = .noKey ∧ (answering (.key 7) State.reset).kbd.answer = .key 7 ∧
    (answering .interrupt State.reset).kbd.answer = .interrupt ∧ State.reset.run = .running ∧
    { State.reset with service := some .getc }.service = some .getc ∧
    { State.reset with service := some .inKey }.service = some .inKey := by decide

/-- A trap that writes no register, and a service that does. -/
theorem witness_TrapLinksNothing :
    (∃ t, exec (.trap 0x26) State.reset = .next t) ∧ (Instr.trap 0x26).destinations = [] ∧
    (Instr.trap 0x26).core ≠ .trap 0x22 ∧ (Instr.trap 0x26).core ≠ .trap 0x24 ∧
    ∃ t, Instr.getc ∈ [Instr.getc, .out, .puts, .inKey, .putsp, .halt] ∧ exec .getc State.reset = .next t :=
  ⟨⟨_, rfl⟩, by decide, by decide, by decide, _, by decide, rfl⟩

theorem witness_ReservedOpcodesDoNothing :
    fieldOpcode 0x8FFF = Opcode.rti.bits ∧ fieldOpcode 0xD123 = Opcode.res.bits := by decide

theorem witness_OperateAndControlFrame :
    (∃ t, exec (.not .r2 .r3) State.reset = .next t) ∧ ∃ t, exec (.br false true false 3) State.reset = .next t :=
  ⟨⟨_, rfl⟩, ⟨_, rfl⟩⟩

theorem witness_LoadFrame : ∃ t, exec (.ld .r1 2) State.reset = .next t := ⟨_, rfl⟩

/-- ST, STR, STI with an ordinary pointer, and STI whose pointer read gives a word or is halted. -/
theorem witness_StoreFrame :
    (∃ t, exec (.st .r3 5) State.reset = .next t) ∧ (∃ t, exec (.str .r1 .r6 0) State.reset = .next t) ∧
    (∃ t, exec (.sti .r2 4) State.reset = .next t) ∧ pcRel9 4 State.reset ≠ Config.kbsrAddr ∧
    (∃ ea u, memRead (pcRel9 4 State.reset) State.reset = .value ea u) ∧
    ∃ t u, exec (.sti .r2 0) (answering .interrupt { State.reset with pc := 0xFE00 }) = .next t ∧
      memRead (pcRel9 0 (answering .interrupt { State.reset with pc := 0xFE00 }))
        (answering .interrupt { State.reset with pc := 0xFE00 }) = .stopped u :=
  ⟨⟨_, rfl⟩, ⟨_, rfl⟩, ⟨_, rfl⟩, by decide, ⟨_, _, rfl⟩, _, _, rfl, rfl⟩

theorem witness_CondIsWrittenOnlyByFlagSetters :
    ((Instr.st .r0 0).setsCond = false ∧ ∃ t, exec (.st .r0 0) State.reset = .next t) ∧
    (∃ t, step (fetching 0x1021) = .next t) ∧
    ∃ s, launch zeros 4 ⟨[], 0⟩ none [0x30, 0x00, 0x12, 0x34] = .ok s :=
  ⟨⟨rfl, _, rfl⟩, ⟨_, rfl⟩, _, rfl⟩

theorem witness_CondIsReadOnlyByBranch :
    (∀ n z p off, Instr.addImm .r1 .r1 1 ≠ .br n z p off) ∧ ∃ t, exec (.addImm .r1 .r1 1) State.reset = .next t :=
  ⟨by simp, _, rfl⟩

theorem witness_RegistersAreWrittenOnlyAsDestinations : ∃ t, exec (.jsr 5) State.reset = .next t := ⟨_, rfl⟩

theorem witness_PcIsWrittenOnlyByTransfers :
    (Instr.nop 1).transfersControl = false ∧ ∃ t, exec (.nop 1) State.reset = .next t := ⟨rfl, _, rfl⟩

theorem witness_MemoryIsWrittenOnlyByStores :
    (Instr.ld .r0 0).stores = false ∧ ∃ t, exec (.ld .r0 0) State.reset = .next t := ⟨rfl, _, rfl⟩

theorem witness_ConsoleOnlyGrows :
    (Instr.halt.prints = false ∧ ∃ t, exec .halt State.reset = .next t) ∧ ∃ t, step (fetching 0xF021) = .next t :=
  ⟨⟨rfl, _, rfl⟩, _, rfl⟩

/-- Without a host stop in sight, and with one due after this cycle. -/
theorem witness_StepRunsTheDecodedInstruction :
    (fetching 0x1021).run = .running ∧ (fetching 0x1021).service = none ∧ (fetching 0x1021).pc ≠ Config.kbsrAddr ∧
    decode ((fetching 0x1021).mem.read (fetching 0x1021).pc) = .addImm .r0 .r0 1 ∧ (fetching 0x1021).hostStop = none ∧
    { fetching 0x1021 with hostStop := some 1 }.hostStop = some (0 + 1) ∧
    (∃ w t, memRead (fetching 0x1021).pc (fetching 0x1021) = .value w t) ∧
    ∃ t, memRead 0xFE00 (answering .interrupt { fetching 0x1021 with pc := 0xFE00 }) = .stopped t :=
  ⟨by decide, by decide, by decide, by decide, by decide, by decide, ⟨_, _, rfl⟩, _, rfl⟩

/-- The host interrupt port silent, and counting with one cycle left. -/
theorem witness_FetchFromTheStatusWord :
    Memory.wf stored ∧ { State.reset with pc := 0xFE00, mem := stored }.run = .running ∧
    { State.reset with pc := 0xFE00, mem := stored }.service = none ∧
    { State.reset with pc := 0xFE00, mem := stored }.hostStop = none ∧
    { State.reset with pc := 0xFE00, mem := stored, hostStop := some 1 }.hostStop = some (0 + 1) ∧
    { State.reset with pc := 0xFE00, mem := stored }.pc = Config.kbsrAddr ∧
    (answering (.key 0x61) State.reset).kbd.answer = .key 0x61 ∧ (answering .noKey State.reset).kbd.answer = .noKey ∧
    (answering .interrupt State.reset).kbd.answer = .interrupt := by decide

theorem witness_StoppedMachineStaysAsItIs :
    { State.reset with run := .halted .trapHalt }.run ≠ .running ∧
    { State.reset with run := .faulted (.unknownTrapVector 0xFF) }.run ≠ .running := by decide

theorem witness_HostInterruptWinsAtTheBoundary :
    { State.reset with hostStop := some 0 }.run = .running ∧ { State.reset with hostStop := some 0 }.service = none ∧
    { State.reset with hostStop := some 0 }.hostStop = some 0 := by decide

theorem witness_EveryStepKeepsTheInvariant :
    State.Inv (fetching 0x1021) ∧ ∃ t, step (fetching 0x1021) = .next t :=
  ⟨⟨by decide, by decide, by decide⟩, _, rfl⟩

theorem witness_InvariantHoldsAtReset : condLegal 1 = true ∧ condLegal 2 = true ∧ condLegal 4 = true := by decide

theorem witness_SuccessOnlyThroughTrapHalt :
    Memory.wf (fetching 0xF025).mem ∧ (fetching 0xF025).run = .running ∧
    ∃ t, step (fetching 0xF025) = .next t ∧ t.succeeded := ⟨by decide, rfl, _, rfl, rfl⟩

theorem witness_FaultOnlyThroughAnUnknownVector :
    Memory.wf (fetching 0xF026).mem ∧ (fetching 0xF026).run = .running ∧
    ∃ t, step (fetching 0xF026) = .next t ∧ t.hasFaulted := ⟨by decide, rfl, _, rfl, _, rfl⟩

/-- A memory that holds something, and an image with a trailing byte. -/
theorem witness_LoaderStoresTheImage :
    Memory.wf stored ∧ ([0x56] : List Byte).length ≤ 1 ∧ ([0x1234, 0x5678] : List Word)[1]? = some 0x5678 ∧
    (∀ k, 1 < k → k < 2 → (0xFFFF : Word) + BitVec.ofNat 16 k ≠ 0xFFFF + BitVec.ofNat 16 1) ∧
    ∀ j, j < 2 → (0x0001 : Word) ≠ 0xFFFF + BitVec.ofNat 16 j :=
  ⟨by decide, by decide, by decide, fun k h1 h2 => by omega, by decide⟩

/-- The 1-byte and the 2-byte image. -/
theorem witness_LaunchStartsAtTheEntryPoint :
    ([0x30] : List Byte).length < 2 ∧ 2 ≤ ([0x30, 0x00] : List Byte).length := by decide

end Sys2Proof.Tests
end

section
/-! PROOF. Sign extension `sext_N` read as a number and as a two's-complement number (00_scope.md R9). -/

namespace Sys2Proof.Machine

/-- The formula of R9. The sign bit is set exactly from `2 ^ (n - 1)` on, and it adds `65536 - 2 ^ n`. -/
theorem toNat_sext {n : Nat} (f : BitVec n) (hpos : 0 < n) (hle : n ≤ 16) :
    (sext f).toNat = if f.toNat < 2 ^ (n - 1) then f.toNat else f.toNat + 65536 - 2 ^ n := by
  have hpow : 2 ^ n ≤ 65536 := Nat.pow_le_pow_right (by decide : 0 < 2) hle
  rw [sext_eq_signExtend f hpos hle, BitVec.toNat_signExtend, BitVec.toNat_setWidth_of_le hle, BitVec.msb_eq_decide]
  by_cases hlow : f.toNat < 2 ^ (n - 1)
  · simp [hlow]
  · have hneg : 2 ^ (n - 1) ≤ f.toNat := Nat.le_of_not_lt hlow
    simp only [hneg, hlow, decide_true, if_true, if_false]
    omega

/-- `sext_N` keeps the signed reading of the field (R9). -/
theorem toInt_sext {n : Nat} (f : BitVec n) (hpos : 0 < n) (hle : n ≤ 16) : (sext f).toInt = f.toInt := by
  rw [sext_eq_signExtend f hpos hle, BitVec.toInt_signExtend_of_le hle]

end Sys2Proof.Machine

namespace Sys2Proof.Proofs
open Sys2Proof.Machine

/-- Settles O8: `sext_N` is the sign extension of bit vectors, whose unsigned value is the formula of R9 and whose
signed value is the field's. -/
theorem signExtensionIsTwosComplement : Obligations.SignExtensionIsTwosComplement := by
  intro n f hpos hle
  exact ⟨toNat_sext f hpos hle, toInt_sext f hpos hle⟩

end Sys2Proof.Proofs
end

section
/-! PROOF. COND: the flag calculator by its three values, and every operation run from a state with another
COND (10_state.md R26 to R28). An operation that neither reads nor writes COND runs alike from `s` and from `s.withCond c` and
carries the content of COND along; in particular it keeps it. -/

namespace Sys2Proof.Machine

/-! ### The flag calculator -/

theorem flags_eq_condZero_iff (v : Word) : flags v = Config.condZero ↔ v = 0 := by
  unfold flags
  split
  case isTrue hz => exact iff_of_true rfl hz
  case isFalse hz => split <;> exact iff_of_false (by decide) hz

theorem flags_eq_condNegative_iff (v : Word) : flags v = Config.condNegative ↔ v.getLsbD 15 = true := by
  unfold flags
  split
  case isTrue hz => subst hz; decide
  case isFalse hz =>
    split
    case isTrue hn => exact iff_of_true rfl hn
    case isFalse hn => exact iff_of_false (by decide) hn

theorem flags_eq_condPositive_iff (v : Word) :
    flags v = Config.condPositive ↔ v ≠ 0 ∧ v.getLsbD 15 = false := by
  unfold flags
  split
  case isTrue hz => exact iff_of_false (by decide) fun h => h.1 hz
  case isFalse hz =>
    split
    case isTrue hn => exact iff_of_false (by decide) fun h => by rw [hn] at h; cases h.2
    case isFalse hn => exact iff_of_true rfl ⟨hz, by simpa using hn⟩

/-! ### Another content of COND -/

/-- `s` with `c` in COND. -/
def State.withCond (c : Word) (s : State) : State := { s with cond := c }

/-- What a read gives, with `c` in COND. -/
def ReadResult.withCond (c : Word) : ReadResult → ReadResult
  | .value w s => .value w (s.withCond c)
  | .stopped s => .stopped (s.withCond c)

theorem cond_eq_of_eq_withCond {s : State} {c : Word} (h : s = s.withCond c) : s.cond = c := by
  rw [h]
  rfl

/-- An operation that carries every content of COND along keeps COND. -/
theorem cond_eq_of_carries {f : State → State} (h : ∀ s c, f (s.withCond c) = (f s).withCond c) (s : State) :
    (f s).cond = s.cond :=
  cond_eq_of_eq_withCond (h s s.cond)

/-- A read neither reads nor writes COND (R52). -/
theorem memRead_withCond (a : Word) (s : State) (c : Word) :
    memRead a (s.withCond c) = (memRead a s).withCond c := by
  by_cases ha : a = Config.kbsrAddr
  · subst ha
    rw [memRead_status, memRead_status, show (s.withCond c).kbd = s.kbd from rfl]
    cases s.kbd.answer <;> rfl
  · rw [memRead_plain ha, memRead_plain ha]
    rfl

/-- The wait for a key carries COND along where what it does with the key does (R119). -/
theorem awaitKey_withCond {done : Word → State → State}
    (hdone : ∀ k s c, done k (s.withCond c) = (done k s).withCond c) (wait : Service) (s : State) (c : Word) :
    awaitKey wait done (s.withCond c) = (awaitKey wait done s).withCond c := by
  rcases awaitKey_cases wait done s with ⟨k, ha, e⟩ | ⟨ha, e⟩ | ⟨ha, e⟩ <;> rw [e]
  · exact (awaitKey_key (s := s.withCond c) ha wait done).trans (congrArg State.serviceDone (hdone k s.afterCall c))
  · exact awaitKey_noKey (s := s.withCond c) ha wait done
  · exact awaitKey_interrupt (s := s.withCond c) ha wait done

/-- The string loop carries COND along (R173, R175). -/
theorem printString_withCond (chars : Word → List Byte) (more : Word → Service) (fuel : Nat) (a : Word) (s : State)
    (c : Word) :
    printString chars more fuel a (s.withCond c) = (printString chars more fuel a s).withCond c := by
  induction fuel generalizing a s with
  | zero => rfl
  | succ n ih =>
    simp only [printString, memRead_withCond]
    cases memRead a s with
    | stopped t => rfl
    | value w t =>
      simp only [ReadResult.withCond]
      split
      · rfl
      · exact ih (a + 1) (t.writeChars (chars w))

theorem getcRead_withCond (s : State) (c : Word) : getcRead (s.withCond c) = (getcRead s).withCond c :=
  awaitKey_withCond (fun _ _ _ => rfl) .getc s c

theorem inRead_withCond (s : State) (c : Word) : inRead (s.withCond c) = (inRead s).withCond c :=
  awaitKey_withCond (fun _ _ _ => rfl) .inKey s c

/-- Every service carries COND along (R178). -/
theorem runTrap_withCond (name : TrapName) (s : State) (c : Word) :
    runTrap name (s.withCond c) = (runTrap name s).withCond c := by
  cases name with
  | getc => exact getcRead_withCond s c
  | out => rfl
  | puts => exact printString_withCond putsChars .puts Config.passLength (s.reg .r0) s c
  | inKey => exact inRead_withCond (s.writeChars Config.inPrompt) c
  | putsp => exact printString_withCond putspChars .putsp Config.passLength (s.reg .r0) s c
  | halt => rfl

/-- So does a service that goes on in a later step. -/
theorem continueService_withCond (v : Service) (s : State) (c : Word) :
    continueService v (s.withCond c) = (continueService v s).withCond c := by
  cases v with
  | getc => exact getcRead_withCond s c
  | inKey => exact inRead_withCond s c
  | puts a => exact printString_withCond putsChars .puts Config.passLength a s c
  | putsp a => exact printString_withCond putspChars .putsp Config.passLength a s c

/-! ### Instructions that do not set COND -/

/-- A NOP changes nothing: mask 000 is never taken (R92, R140). -/
theorem execNop_eq (off : BitVec 9) (s : State) : execNop off s = .next s := by
  simp [execNop, branch]

/-- A branch writes no COND (R27). -/
theorem branch_cond (n z p : Bool) (off : BitVec 9) (s : State) : (branch n z p off s).cond = s.cond := by
  unfold branch
  split <;> rfl

theorem next_runTrap_withCond {name : TrapName} {s t : State} (h : .next (runTrap name s) = (.next t : StepResult))
    (c : Word) : .next (runTrap name (s.withCond c)) = (.next (t.withCond c) : StepResult) := by
  cases h
  rw [runTrap_withCond]

theorem execTrap_withCond {v : Byte} {s t : State} (h : execTrap v s = .next t) (c : Word) :
    execTrap v (s.withCond c) = .next (t.withCond c) := by
  unfold execTrap at h ⊢
  split at h
  · exact next_runTrap_withCond h c
  · cases h
    rfl

theorem execSti_withCond {sr : Reg} {off : BitVec 9} {s t : State} (h : execSti sr off s = .next t) (c : Word) :
    execSti sr off (s.withCond c) = .next (t.withCond c) := by
  have hread : memRead (pcRel9 off (s.withCond c)) (s.withCond c) = (memRead (pcRel9 off s) s).withCond c :=
    memRead_withCond (pcRel9 off s) s c
  unfold execSti at h ⊢
  rw [hread]
  cases hr : memRead (pcRel9 off s) s <;> rw [hr] at h <;> cases h <;> rfl

/-- An instruction other than BR that sets no flags neither reads nor writes COND (R27, R28). -/
theorem exec_withCond {i : Instr} (hbr : ∀ n z p off, i ≠ .br n z p off) (hset : i.setsCond = false) {s t : State}
    (h : exec i s = .next t) (c : Word) : exec i (s.withCond c) = .next (t.withCond c) := by
  match i, hset with
  | .br n z p off, _ => exact absurd rfl (hbr n z p off)
  | .nop off, _ =>
    cases (execNop_eq off s).symm.trans h
    exact execNop_eq off _
  | .jmp base, _ => cases h; rfl
  | .ret, _ => cases h; rfl
  | .jsr off, _ => cases h; rfl
  | .jsrr base, _ => cases h; rfl
  | .st sr off, _ => cases h; rfl
  | .str sr base off, _ => cases h; rfl
  | .sti sr off, _ => exact execSti_withCond h c
  | .rti ignored, _ => cases h; rfl
  | .res ignored, _ => cases h; rfl
  | .trap v, _ => exact execTrap_withCond h c
  | .getc, _ => exact next_runTrap_withCond (name := .getc) h c
  | .out, _ => exact next_runTrap_withCond (name := .out) h c
  | .puts, _ => exact next_runTrap_withCond (name := .puts) h c
  | .inKey, _ => exact next_runTrap_withCond (name := .inKey) h c
  | .putsp, _ => exact next_runTrap_withCond (name := .putsp) h c
  | .halt, _ => exact next_runTrap_withCond (name := .halt) h c

/-- No instruction but the seven flag-setters changes COND (R27). -/
theorem exec_cond {i : Instr} (hset : i.setsCond = false) {s t : State} (h : exec i s = .next t) :
    t.cond = s.cond := by
  by_cases hbr : ∃ n z p off, i = .br n z p off
  · obtain ⟨n, z, p, off, rfl⟩ := hbr
    cases h
    exact branch_cond n z p off s
  · have hnext : exec i s = .next (t.withCond s.cond) :=
      exec_withCond (fun n z p off e => hbr ⟨n, z, p, off, e⟩) hset h s.cond
    exact cond_eq_of_eq_withCond (Host.Outcome.next.inj (h.symm.trans hnext))

/-! ### The flag-setting instructions -/

/-- How a flag-setting operation with destination `dr` ends, where `m c` is its answer from the content `c` of COND. -/
inductive FlagSetting (dr : Reg) (m : Word → StepResult) : State → Prop
  /-- It writes a value to `dr` and the value's flag to COND, whatever COND was (R26). -/
  | written (v : Word) (u : State) (h : ∀ c, m c = .next (u.writeResult dr v)) : FlagSetting dr m (u.writeResult dr v)
  /-- A poll halts it before it writes, and it carries COND along (R154, R206). -/
  | halted (t : State) (hrun : t.run = .halted .hostInterrupt) (h : ∀ c, m c = .next (t.withCond c)) :
    FlagSetting dr m t

/-- A read halts only by a host interrupt (R52). -/
theorem memRead_stopped_run {a : Word} {s u : State} (h : memRead a s = .stopped u) :
    u.run = .halted .hostInterrupt := by
  obtain ⟨-, -, rfl⟩ := memRead_stopped h
  rfl

/-- LD and LDR, from their address on (R154). -/
theorem loadFrom_flagSetting {dr : Reg} {ea : Word} {s t : State} (h : loadFrom dr ea s = .next t) :
    FlagSetting dr (fun c => loadFrom dr ea (s.withCond c)) t := by
  simp only [loadFrom, memRead_withCond] at h ⊢
  cases hr : memRead ea s with
  | value v u =>
    rw [hr] at h
    cases h
    exact .written v u fun _ => rfl
  | stopped u =>
    rw [hr] at h
    cases h
    exact .halted t (memRead_stopped_run hr) fun _ => rfl

/-- LDI: the pointer is read, then the load is from it (R151). -/
theorem execLdi_flagSetting {dr : Reg} {off : BitVec 9} {s t : State} (h : execLdi dr off s = .next t) :
    FlagSetting dr (fun c => execLdi dr off (s.withCond c)) t := by
  have hea (c : Word) : pcRel9 off (s.withCond c) = pcRel9 off s := rfl
  simp only [execLdi, hea, memRead_withCond] at h ⊢
  cases hr : memRead (pcRel9 off s) s with
  | value ea u =>
    rw [hr] at h
    exact loadFrom_flagSetting h
  | stopped u =>
    rw [hr] at h
    cases h
    exact .halted t (memRead_stopped_run hr) fun _ => rfl

/-- Every flag-setting instruction has one destination and sets the flags of what it leaves there (R26, R27). -/
theorem exec_flagSetting {i : Instr} (hset : i.setsCond = true) {s t : State} (h : exec i s = .next t) :
    ∃ dr, i.destinations = [dr] ∧ FlagSetting dr (fun c => exec i (s.withCond c)) t := by
  match i, hset with
  | .addReg dr sr1 sr2, _ => cases h; exact ⟨dr, rfl, .written _ _ fun _ => rfl⟩
  | .addImm dr sr1 imm5, _ => cases h; exact ⟨dr, rfl, .written _ _ fun _ => rfl⟩
  | .andReg dr sr1 sr2, _ => cases h; exact ⟨dr, rfl, .written _ _ fun _ => rfl⟩
  | .andImm dr sr1 imm5, _ => cases h; exact ⟨dr, rfl, .written _ _ fun _ => rfl⟩
  | .not dr sr, _ => cases h; exact ⟨dr, rfl, .written _ _ fun _ => rfl⟩
  | .lea dr off, _ => cases h; exact ⟨dr, rfl, .written _ _ fun _ => rfl⟩
  | .ld dr off, _ => exact ⟨dr, rfl, loadFrom_flagSetting (ea := pcRel9 off s) h⟩
  | .ldr dr base off, _ => exact ⟨dr, rfl, loadFrom_flagSetting (ea := baseOff base off s) h⟩
  | .ldi dr off, _ => exact ⟨dr, rfl, execLdi_flagSetting h⟩

/-! ### A step -/

/-- The host interrupt port takes no part in a read. -/
theorem memRead_hostStop {a w : Word} {s u : State} {stop : Option Nat}
    (h : memRead a { s with hostStop := stop } = .value w u) : ∃ u', memRead a s = .value w u' := by
  by_cases ha : a = Config.kbsrAddr
  · subst ha
    rw [memRead_status] at h ⊢
    dsimp only at h
    split at h <;> cases h <;> exact ⟨_, rfl⟩
  · rw [memRead_plain ha] at h ⊢
    cases h
    exact ⟨s, rfl⟩

/-- A cycle changes COND only if the word it fetches decodes to a flag-setter (R27). -/
theorem cycle_cond {s t : State} (h : cycle s = .next t) :
    t.cond = s.cond ∨ ∃ w u, memRead s.pc s = .value w u ∧ (decode w).setsCond = true := by
  rcases cycle_cases h with ⟨w, u, hr, he⟩ | ⟨u, hr, rfl⟩
  · cases hset : (decode w).setsCond with
    | true => exact .inr ⟨w, u, hr, hset⟩
    | false =>
      obtain ⟨⟨-, -, hu, -⟩, -⟩ := memRead_frame hr
      exact .inl ((exec_cond hset he).trans hu)
  · obtain ⟨-, -, rfl⟩ := memRead_stopped hr
    exact .inl rfl

/-- The loader leaves COND at its reset value (R27, R230). -/
theorem launch_cond {gpr : RegFile} {c : Word} {kbd : Keyboard} {stop : Option Nat} {image : List Byte} {s : State}
    (h : launch gpr c kbd stop image = .ok s) : s.cond = c := by
  unfold launch at h
  split at h <;> cases h
  rfl

end Sys2Proof.Machine

namespace Sys2Proof.Proofs
open Sys2Proof.Machine

/-- Settles O7: the three values of the flag calculator, and for the flag-setters the value and its flag written
together, since a poll that halts the machine does not leave it RUNNING. -/
theorem flagCalculatorPartition : Obligations.FlagCalculatorPartition := by
  refine ⟨fun v => ⟨flags_eq_condZero_iff v, flags_eq_condNegative_iff v, flags_eq_condPositive_iff v⟩,
    by decide, by decide, by decide, fun _ _ => rfl, ?_⟩
  intro i dr s t hset hdr h _ hrun
  obtain ⟨d, hd, hflag⟩ := exec_flagSetting hset h
  obtain rfl : d = dr := (List.cons.inj (hd.symm.trans hdr)).1
  cases hflag with
  | written v u => rw [State.writeResult_cond, State.writeResult_reg, if_pos rfl]
  | halted _ hhalt =>
    rw [hhalt] at hrun
    cases hrun

/-- Settles O43: an instruction that sets no flags keeps COND, and of the four things a step can do only a cycle runs an
instruction. -/
theorem condIsWrittenOnlyByFlagSetters : Obligations.CondIsWrittenOnlyByFlagSetters := by
  refine ⟨fun i s t hset h => exec_cond hset h, fun s t h => ?_, fun gpr c kbd stop image s h => launch_cond h⟩
  rcases step_cases h with ⟨-, rfl⟩ | ⟨-, v, -, rfl⟩ | ⟨-, -, -, rfl⟩ | ⟨hrun, hserv, hs, hcycle, hdue⟩
  · exact .inl rfl
  · exact .inl (cond_eq_of_carries (continueService_withCond v) s)
  · exact .inl rfl
  · rcases cycle_cond hcycle with hcond | ⟨w, u, hr, hset⟩
    · exact .inl hcond
    · obtain ⟨u', hr'⟩ := memRead_hostStop hr
      have hlive : s.hostStop ≠ some 0 := by
        rcases hdue with ⟨hnone, -⟩ | ⟨n, hsome, -⟩
        · simp [hnone]
        · simp [hsome]
      exact .inr ⟨hrun, hserv, hlive, w, u', hr', hset⟩

/-- Settles O44: a flag-setter overwrites COND or is halted with COND carried along, and every other instruction but BR
carries COND along. -/
theorem condIsReadOnlyByBranch : Obligations.CondIsReadOnlyByBranch := by
  intro i s t c hbr h
  cases hset : i.setsCond with
  | false => exact .inr ⟨exec_cond hset h, exec_withCond hbr hset h c⟩
  | true =>
    obtain ⟨dr, -, hflag⟩ := exec_flagSetting hset h
    cases hflag with
    | written v u hc => exact .inl (hc c)
    | halted _ _ hc =>
      exact .inr ⟨cond_eq_of_eq_withCond (Host.Outcome.next.inj (h.symm.trans (hc s.cond))), hc c⟩

end Sys2Proof.Proofs
end

section
/-! PROOF. The two access primitives and a poll of the status word (20_memory.md R52, R53, R61). A poll uses one
keyboard answer and puts in place the memory of that answer: `State.polled`. -/

namespace Sys2Proof.Machine

/-! ### Writes -/

/-- Writing a word twice is writing it once (R61). -/
theorem Memory.write_write_self {m : Memory} (h : Memory.wf m) (a v : Word) :
    (m.write a v).write a v = m.write a v := by
  have h' : Memory.wf (m.write a v) := Memory.write_wf h a v
  refine Memory.ext (Memory.write_wf h' a v) h' fun b => ?_
  rw [Memory.read_write h' a v b, Memory.read_write h a v b]
  split <;> rfl

/-! ### Polls -/

/-- The memory after a poll that found no key (R52). -/
def idleMem (m : Memory) : Memory := m.write Config.kbsrAddr Config.kbsrIdle

theorem idleMem_status {m : Memory} (h : Memory.wf m) : (idleMem m).read Config.kbsrAddr = Config.kbsrIdle :=
  Memory.read_write_self h _ _

theorem idleMem_wf {m : Memory} (h : Memory.wf m) : Memory.wf (idleMem m) :=
  Memory.write_wf h _ _

theorem idleMem_other (m : Memory) {a : Word} (hs : a ≠ Config.kbsrAddr) : (idleMem m).read a = m.read a :=
  Memory.read_write_ne m _ hs

/-- The state after a poll that left memory as `m`. -/
def State.polled (m : Memory) (s : State) : State := { s.afterCall with mem := m }

@[simp] theorem State.polled_mem (m : Memory) (s : State) : (s.polled m).mem = m := rfl
@[simp] theorem State.polled_regs (m : Memory) (s : State) : (s.polled m).regs = s.regs := rfl
@[simp] theorem State.polled_reg (m : Memory) (s : State) (r : Reg) : (s.polled m).reg r = s.reg r := rfl

/-- A poll that finds a key changes no word but the device words (R52). -/
theorem sameMemExcept_polledMem {s t : State} {k : Word} (h : t.mem = polledMem k s.mem) :
    SameMemExcept deviceWords s t := by
  intro a ha
  simp only [deviceWords, List.mem_cons, List.not_mem_nil, or_false, not_or] at ha
  rw [h, polledMem_other s.mem k ha.1 ha.2]

/-- A poll that finds no key changes no word but the status word (R52). -/
theorem sameMemExcept_idleMem {s t : State} (h : t.mem = idleMem s.mem) : SameMemExcept [Config.kbsrAddr] s t := by
  intro a ha
  rw [h, idleMem_other s.mem (List.ne_of_not_mem_cons ha)]

section
variable {s : State}

theorem memRead_status_key {k : Word} (hm : Memory.wf s.mem) (hk : s.kbd.answer = .key k) :
    memRead Config.kbsrAddr s = .value Config.kbsrReady (s.polled (polledMem k s.mem)) := by
  rw [memRead_status, hk]
  exact congrArg (ReadResult.value · _) (polledMem_status hm k)

theorem memRead_status_noKey (hm : Memory.wf s.mem) (hk : s.kbd.answer = .noKey) :
    memRead Config.kbsrAddr s = .value Config.kbsrIdle (s.polled (idleMem s.mem)) := by
  rw [memRead_status, hk]
  exact congrArg (ReadResult.value · _) (idleMem_status hm)

theorem memRead_status_interrupt (hk : s.kbd.answer = .interrupt) :
    memRead Config.kbsrAddr s = .stopped (s.afterCall.halt .hostInterrupt) := by
  rw [memRead_status, hk]

end

end Sys2Proof.Machine

namespace Sys2Proof.Proofs
open Sys2Proof.Machine

/-- The machine after reset, where the host answers the first poll with a key and the second with none. -/
def keyThenNone : State := { State.reset with kbd := ⟨[.key 0x61, .noKey], 0⟩ }

/-- Settles O18: the memory is the one `Memory.write` gives, and a read after it is `Memory.read_write`. -/
theorem writeIsAPlainStore : Obligations.WriteIsAPlainStore :=
  fun a v b s hm => ⟨s.mem.write a v, rfl, Memory.read_write hm a v b⟩

/-- Settles O19: only the status word polls, and a poll with a key followed by one without reads 0x8000 and then
0x0000. -/
theorem ordinaryReadHasNoEffect : Obligations.OrdinaryReadHasNoEffect := by
  refine ⟨fun a s ha => memRead_plain ha s, memRead_plain kbdr_ne_kbsr, fun a v s hm => ?_, ?_⟩
  · exact congrArg (fun m => { s with mem := m }) (Memory.write_write_self hm a v)
  · exact ⟨keyThenNone, _, _, Config.kbsrReady, Config.kbsrIdle, rfl, rfl, by decide, by decide⟩

end Sys2Proof.Proofs
end

section
/-! PROOF. Loads, and STI through the status word (43_load.md R150 to R154, 44_store.md R161): each instruction by
the address it reads, then by what the host answers where that is the status word. -/

namespace Sys2Proof.Machine

/-! ### Effective addresses -/

theorem pcRel9_eq (off : BitVec 9) (s : State) : pcRel9 off s = s.pc + off.signExtend 16 :=
  congrArg (s.pc + ·) (sext_eq_signExtend off (by decide) (by decide))

theorem baseOff_eq (base : Reg) (off : BitVec 6) (s : State) : baseOff base off s = s.reg base + off.signExtend 16 :=
  congrArg (s.reg base + ·) (sext_eq_signExtend off (by decide) (by decide))

theorem exec_ld (dr : Reg) (off : BitVec 9) (s : State) :
    exec (.ld dr off) s = loadFrom dr (s.pc + off.signExtend 16) s :=
  congrArg (loadFrom dr · s) (pcRel9_eq off s)

theorem exec_ldr (dr base : Reg) (off : BitVec 6) (s : State) :
    exec (.ldr dr base off) s = loadFrom dr (s.reg base + off.signExtend 16) s :=
  congrArg (loadFrom dr · s) (baseOff_eq base off s)

theorem exec_ldi (dr : Reg) (off : BitVec 9) (s : State) :
    exec (.ldi dr off) s = (memRead (s.pc + off.signExtend 16) s).andThen (loadFrom dr) :=
  congrArg (fun a => (memRead a s).andThen (loadFrom dr)) (pcRel9_eq off s)

theorem exec_sti (sr : Reg) (off : BitVec 9) (s : State) :
    exec (.sti sr off) s = (memRead (s.pc + off.signExtend 16) s).andThen (storeTo sr) :=
  congrArg (fun a => (memRead a s).andThen (storeTo sr)) (pcRel9_eq off s)

/-! ### Loads from a known address -/

theorem loadFrom_plain {ea : Word} (h : ea ≠ Config.kbsrAddr) (dr : Reg) (s : State) :
    loadFrom dr ea s = .next (s.writeResult dr (s.mem.read ea)) := by
  rw [loadFrom, memRead_plain h, andThen_value]

/-- LDI whose pointer word is not the status word loads from the address held there (R151). -/
theorem exec_ldi_plain {off : BitVec 9} {s : State} (h : s.pc + off.signExtend 16 ≠ Config.kbsrAddr) (dr : Reg) :
    exec (.ldi dr off) s = loadFrom dr (s.mem.read (s.pc + off.signExtend 16)) s := by
  rw [exec_ldi, memRead_plain h, andThen_value]

section
variable {s : State}

theorem loadFrom_status_key {k : Word} (hm : Memory.wf s.mem) (hk : s.kbd.answer = .key k) (dr : Reg) :
    loadFrom dr Config.kbsrAddr s = .next ((s.polled (polledMem k s.mem)).writeResult dr Config.kbsrReady) := by
  rw [loadFrom, memRead_status_key hm hk, andThen_value]

theorem loadFrom_status_noKey (hm : Memory.wf s.mem) (hk : s.kbd.answer = .noKey) (dr : Reg) :
    loadFrom dr Config.kbsrAddr s = .next ((s.polled (idleMem s.mem)).writeResult dr Config.kbsrIdle) := by
  rw [loadFrom, memRead_status_noKey hm hk, andThen_value]

theorem loadFrom_status_interrupt (hk : s.kbd.answer = .interrupt) (dr : Reg) :
    loadFrom dr Config.kbsrAddr s = .next (s.afterCall.halt .hostInterrupt) := by
  rw [loadFrom, memRead_status_interrupt hk, andThen_stopped]

/-! ### LDI whose pointer word is the status word: 0x8000 and 0x0000 are themselves no device words (decision D2) -/

theorem exec_ldi_status_key {off : BitVec 9} {k : Word} (hm : Memory.wf s.mem)
    (hea : s.pc + off.signExtend 16 = Config.kbsrAddr) (hk : s.kbd.answer = .key k) (dr : Reg) :
    exec (.ldi dr off) s =
      .next ((s.polled (polledMem k s.mem)).writeResult dr (s.mem.read Config.kbsrReady)) := by
  rw [exec_ldi, hea, memRead_status_key hm hk, andThen_value, loadFrom_plain (by decide), State.polled_mem,
    polledMem_other s.mem k (by decide) (by decide)]

theorem exec_ldi_status_noKey {off : BitVec 9} (hm : Memory.wf s.mem)
    (hea : s.pc + off.signExtend 16 = Config.kbsrAddr) (hk : s.kbd.answer = .noKey) (dr : Reg) :
    exec (.ldi dr off) s =
      .next ((s.polled (idleMem s.mem)).writeResult dr (s.mem.read Config.kbsrIdle)) := by
  rw [exec_ldi, hea, memRead_status_noKey hm hk, andThen_value, loadFrom_plain (by decide), State.polled_mem,
    idleMem_other s.mem (by decide)]

theorem exec_ldi_status_interrupt {off : BitVec 9} (hea : s.pc + off.signExtend 16 = Config.kbsrAddr)
    (hk : s.kbd.answer = .interrupt) (dr : Reg) :
    exec (.ldi dr off) s = .next (s.afterCall.halt .hostInterrupt) := by
  rw [exec_ldi, hea, memRead_status_interrupt hk, andThen_stopped]

/-! ### What a load that polled leaves -/

/-- A flag-setting result changes no register but its destination (R22). -/
theorem sameRegsExcept_writeResult (m : Memory) (dr : Reg) (v : Word) (s : State) :
    SameRegsExcept [dr] s ((s.polled m).writeResult dr v) :=
  fun _ hr => RegFile.get_set_ne s.regs v (List.ne_of_not_mem_cons hr)

/-- The result of a load whose poll found key `k`: `v` in DR, its flag `c` in COND, the device words as polled. -/
theorem exists_load_after_key {c : Word} (hm : Memory.wf s.mem) (k : Word) (dr : Reg) (v : Word) (hc : flags v = c) :
    ∃ t, (.next ((s.polled (polledMem k s.mem)).writeResult dr v) : StepResult) = .next t ∧ t.reg dr = v ∧
      t.cond = c ∧ t.mem.read Config.kbsrAddr = Config.kbsrReady ∧ t.mem.read Config.kbdrAddr = k ∧
      t.pc = s.pc ∧ t.run = s.run ∧ SameRegsExcept [dr] s t ∧ SameMemExcept deviceWords s t :=
  ⟨_, rfl, RegFile.get_set_self s.regs dr v, hc, polledMem_status hm k, polledMem_data hm k, rfl, rfl,
    sameRegsExcept_writeResult _ dr v s, sameMemExcept_polledMem rfl⟩

/-- The result of a load whose poll found no key: `v` in DR, its flag `c` in COND, the status word 0x0000. -/
theorem exists_load_after_noKey {c : Word} (hm : Memory.wf s.mem) (dr : Reg) (v : Word) (hc : flags v = c) :
    ∃ t, (.next ((s.polled (idleMem s.mem)).writeResult dr v) : StepResult) = .next t ∧ t.reg dr = v ∧
      t.cond = c ∧ t.mem.read Config.kbsrAddr = Config.kbsrIdle ∧
      t.pc = s.pc ∧ t.run = s.run ∧ SameRegsExcept [dr] s t ∧ SameMemExcept [Config.kbsrAddr] s t :=
  ⟨_, rfl, RegFile.get_set_self s.regs dr v, hc, idleMem_status hm, rfl, rfl,
    sameRegsExcept_writeResult _ dr v s, sameMemExcept_idleMem rfl⟩

/-! ### STI whose pointer word is the status word -/

theorem exec_sti_status_key {off : BitVec 9} {k : Word} (hm : Memory.wf s.mem)
    (hea : s.pc + off.signExtend 16 = Config.kbsrAddr) (hk : s.kbd.answer = .key k) (sr : Reg) :
    exec (.sti sr off) s = .next (memWrite Config.kbsrReady (s.reg sr) (s.polled (polledMem k s.mem))) := by
  rw [exec_sti, hea, memRead_status_key hm hk, andThen_value, storeTo, State.polled_reg]

theorem exec_sti_status_noKey {off : BitVec 9} (hm : Memory.wf s.mem)
    (hea : s.pc + off.signExtend 16 = Config.kbsrAddr) (hk : s.kbd.answer = .noKey) (sr : Reg) :
    exec (.sti sr off) s = .next (memWrite Config.kbsrIdle (s.reg sr) (s.polled (idleMem s.mem))) := by
  rw [exec_sti, hea, memRead_status_noKey hm hk, andThen_value, storeTo, State.polled_reg]

theorem exec_sti_status_interrupt {off : BitVec 9} (hea : s.pc + off.signExtend 16 = Config.kbsrAddr)
    (hk : s.kbd.answer = .interrupt) (sr : Reg) :
    exec (.sti sr off) s = .next (s.afterCall.halt .hostInterrupt) := by
  rw [exec_sti, hea, memRead_status_interrupt hk, andThen_stopped]

end

/-- A write adds its own address to those that may have changed (R53). -/
theorem sameMemExcept_memWrite {as : List Word} {s t : State} (h : SameMemExcept as s t) (a v : Word) :
    SameMemExcept (a :: as) s (memWrite a v t) := by
  intro b hb
  obtain ⟨hne, hb⟩ := List.ne_and_not_mem_of_not_mem_cons hb
  rw [memWrite_mem, Memory.read_write_ne _ _ hne, h b hb]

end Sys2Proof.Machine

namespace Sys2Proof.Proofs
open Sys2Proof.Machine

/-- Settles O23: the reads are plain, so each load is its result written to DR and COND. -/
theorem loadsFromOrdinaryWords : Obligations.LoadsFromOrdinaryWords := by
  refine ⟨fun dr off s h => ?_, fun dr base off s h => ?_, fun dr off s hp h => ?_⟩
  · exact (exec_ld dr off s).trans (loadFrom_plain h dr s)
  · exact (exec_ldr dr base off s).trans (loadFrom_plain h dr s)
  · exact (exec_ldi_plain hp dr).trans (loadFrom_plain h dr s)

/-- Settles O24: LD, LDR and LDI through an ordinary pointer all become one load from the status word; LDI whose pointer
word is the status word loads from the status, an ordinary address that the poll did not write. -/
theorem loadsFromTheStatusWordPoll : Obligations.LoadsFromTheStatusWordPoll := by
  refine ⟨fun i dr s hm hi => ?_, fun dr off s hm hea => ⟨fun k hk => ?_, fun hk => ?_, fun hk => ?_⟩⟩
  · have hload : exec i s = loadFrom dr Config.kbsrAddr s := by
      rcases hi with ⟨off, rfl, hea⟩ | ⟨base, off, rfl, hea⟩ | ⟨off, rfl, hp, hea⟩
      · rw [exec_ld, hea]
      · rw [exec_ldr, hea]
      · rw [exec_ldi_plain hp, hea]
    rw [hload]
    refine ⟨fun k hk => ?_, fun hk => ?_, fun hk => loadFrom_status_interrupt hk dr⟩
    · rw [loadFrom_status_key hm hk]
      exact exists_load_after_key hm k dr Config.kbsrReady (by decide)
    · rw [loadFrom_status_noKey hm hk]
      exact exists_load_after_noKey hm dr Config.kbsrIdle (by decide)
  · rw [exec_ldi_status_key hm hea hk]
    exact exists_load_after_key hm k dr _ rfl
  · rw [exec_ldi_status_noKey hm hea hk]
    exact exists_load_after_noKey hm dr _ rfl
  · exact exec_ldi_status_interrupt hea hk dr

/-- Settles O26: the store is to the status just read, 0x8000 or 0x0000, and so leaves the device words as polled. -/
theorem stiThroughTheStatusWord : Obligations.StiThroughTheStatusWord := by
  intro sr off s hm hea
  refine ⟨fun k hk => ⟨_, exec_sti_status_key hm hea hk sr, ?_, ?_, ?_, rfl, rfl, rfl, rfl, ?_⟩,
    fun hk => ⟨_, exec_sti_status_noKey hm hea hk sr, ?_, ?_, rfl, rfl, rfl, rfl, ?_⟩,
    fun hk => exec_sti_status_interrupt hea hk sr⟩
  · exact Memory.read_write_self (polledMem_wf hm k) _ _
  · exact (Memory.read_write_ne _ _ (by decide)).trans (polledMem_status hm k)
  · exact (Memory.read_write_ne _ _ (by decide)).trans (polledMem_data hm k)
  · exact sameMemExcept_memWrite (sameMemExcept_polledMem rfl) _ _
  · exact Memory.read_write_self (idleMem_wf hm) _ _
  · exact (Memory.read_write_ne _ _ (by decide)).trans (idleMem_status hm)
  · exact sameMemExcept_memWrite (sameMemExcept_idleMem rfl) _ _

end Sys2Proof.Proofs
end

section
/-! PROOF. A string that begins at the status word (45_trap.md R173, R175; 20_memory.md R52). -/

namespace Sys2Proof.Machine

variable (chars : Word → List Byte) (more : Word → Service) (fuel : Nat) {s : State}

/-- With a key the status is a character word, and the loop goes on after it. -/
theorem printString_status_key {k : Word} (hm : Memory.wf s.mem) (hk : s.kbd.answer = .key k) :
    printString chars more (fuel + 1) Config.kbsrAddr s =
      printString chars more fuel (Config.kbsrAddr + 1)
        ((s.polled (polledMem k s.mem)).writeChars (chars Config.kbsrReady)) := by
  simp only [printString, memRead_status_key hm hk]
  exact if_neg (by decide)

/-- With no key the status is the zero word that ends the string. -/
theorem printString_status_noKey (hm : Memory.wf s.mem) (hk : s.kbd.answer = .noKey) :
    printString chars more (fuel + 1) Config.kbsrAddr s = (s.polled (idleMem s.mem)).serviceDone := by
  simp only [printString, memRead_status_noKey hm hk]
  exact if_pos rfl

theorem printString_status_interrupt (hk : s.kbd.answer = .interrupt) :
    printString chars more (fuel + 1) Config.kbsrAddr s = s.afterCall.halt .hostInterrupt := by
  simp only [printString, memRead_status_interrupt hk]

/-- The string of the status word alone: a zero word at 0xFE01 stays zero in the poll and ends it. -/
theorem printString_status_key_end {k : Word} (hm : Memory.wf s.mem) (hk : s.kbd.answer = .key k)
    (hend : s.mem.read (Config.kbsrAddr + 1) = 0) :
    printString chars more (fuel + 1 + 1) Config.kbsrAddr s =
      ((s.polled (polledMem k s.mem)).writeChars (chars Config.kbsrReady)).serviceDone := by
  have hzero : (polledMem k s.mem).read (Config.kbsrAddr + 1) = 0 := by
    rw [polledMem_other s.mem k (by decide) (by decide), hend]
  rw [printString_status_key chars more _ hm hk, printString_plain (by decide)]
  exact if_pos hzero

/-- One pass is longer than the two words that `printString_status_key_end` reads. -/
theorem passLength_eq : Config.passLength = 65534 + 1 + 1 := rfl

theorem exec_puts (s : State) :
    exec .puts s = .next (printString putsChars .puts Config.passLength (s.reg .r0) s) := rfl

theorem exec_putsp (s : State) :
    exec .putsp s = .next (printString putspChars .putsp Config.passLength (s.reg .r0) s) := rfl

end Sys2Proof.Machine

namespace Sys2Proof.Proofs
open Sys2Proof.Machine

/-- Settles O34: the status word is the first word of the string, and its character word 0x8000 has the bytes 00 and
80. -/
theorem stringThroughTheStatusWord : Obligations.StringThroughTheStatusWord := by
  intro s hm hr0
  rw [exec_puts, exec_putsp, hr0, passLength_eq]
  refine ⟨fun hk => ⟨_, sameMemExcept_idleMem rfl, idleMem_status hm, ?_⟩,
    fun k hk hend => ⟨_, sameMemExcept_polledMem rfl, polledMem_status hm k, polledMem_data hm k, ?_⟩,
    fun hk => ?_⟩
  · rw [printString_status_noKey _ _ _ hm hk, printString_status_noKey _ _ _ hm hk]
    exact ⟨rfl, rfl⟩
  · rw [printString_status_key_end _ _ _ hm hk hend, printString_status_key_end _ _ _ hm hk hend]
    exact ⟨rfl, rfl⟩
  · rw [printString_status_interrupt _ _ _ hk, printString_status_interrupt _ _ _ hk]
    exact ⟨rfl, rfl⟩

end Sys2Proof.Proofs
end

section
/-! PROOF. The loader (20_memory.md R72, 70_reset_and_hazards.md R233, R235): the image's words one by one, from the
origin on. -/

namespace Sys2Proof.Machine

theorem bigEndian_wordBytes (w : Word) : bigEndian w.highByte w.lowByte = w :=
  (BitVec.extractLsb'_append_extractLsb'_eq_extractLsb' (by decide)).trans BitVec.extractLsb'_eq_self

/-- The address of a later word, counted from the word after `a`. -/
theorem add_one_add_ofNat (a : Word) (j : Nat) : a + 1 + BitVec.ofNat 16 j = a + BitVec.ofNat 16 (j + 1) := by
  rw [BitVec.ofNat_add, BitVec.add_assoc, BitVec.add_comm 1]
  rfl

/-- One word of the image (R233). -/
theorem loadWords_wordBytes (a w : Word) (rest : List Byte) (m : Memory) :
    loadWords a (wordBytes w ++ rest) m = loadWords (a + 1) rest (m.write a w) := by
  show loadWords (a + 1) rest (m.write a (bigEndian w.highByte w.lowByte)) = _
  rw [bigEndian_wordBytes]

theorem loadWords_cons (a w : Word) (ws : List Word) (tail : List Byte) (m : Memory) :
    loadWords a ((w :: ws).flatMap wordBytes ++ tail) m =
      loadWords (a + 1) (ws.flatMap wordBytes ++ tail) (m.write a w) := by
  rw [List.flatMap_cons, List.append_assoc, loadWords_wordBytes]

/-- A trailing byte is ignored (R235). -/
theorem loadWords_tail {tail : List Byte} (h : tail.length ≤ 1) (a : Word) (m : Memory) : loadWords a tail m = m := by
  match tail, h with
  | [], _ => rfl
  | [_], _ => rfl

theorem load_image (origin : Word) (bytes : List Byte) (m : Memory) :
    load (wordBytes origin ++ bytes) m = .ok (loadWords origin bytes m) := by
  show Except.ok (loadWords (bigEndian origin.highByte origin.lowByte) bytes m) = _
  rw [bigEndian_wordBytes]

section
variable {tail : List Byte} (htail : tail.length ≤ 1)
include htail

/-- An address of no word of the image reads as before. -/
theorem read_loadWords_other {a b : Word} (ws : List Word) (m : Memory)
    (hb : ∀ j, j < ws.length → b ≠ a + BitVec.ofNat 16 j) :
    (loadWords a (ws.flatMap wordBytes ++ tail) m).read b = m.read b := by
  induction ws generalizing a m with
  | nil => exact congrArg (Memory.read · b) (loadWords_tail htail a m)
  | cons w ws ih =>
    have hfirst : b ≠ a := by simpa using hb 0 (Nat.succ_pos _)
    have hrest : ∀ j, j < ws.length → b ≠ a + 1 + BitVec.ofNat 16 j := fun j hj => by
      rw [add_one_add_ofNat]
      exact hb (j + 1) (Nat.succ_lt_succ hj)
    rw [loadWords_cons, ih _ hrest, Memory.read_write_ne m w hfirst]

/-- A word of the image is read back at its address, unless a later one has that address (R233; decision D18). -/
theorem read_loadWords_word {a w : Word} {j : Nat} {ws : List Word} {m : Memory} (hm : Memory.wf m)
    (hw : ws[j]? = some w)
    (hlast : ∀ k, j < k → k < ws.length → a + BitVec.ofNat 16 k ≠ a + BitVec.ofNat 16 j) :
    (loadWords a (ws.flatMap wordBytes ++ tail) m).read (a + BitVec.ofNat 16 j) = w := by
  induction ws generalizing a j m with
  | nil => cases hw
  | cons v ws ih =>
    rw [loadWords_cons]
    cases j with
    | zero =>
      cases hw
      have hrest : ∀ j, j < ws.length → a + BitVec.ofNat 16 0 ≠ a + 1 + BitVec.ofNat 16 j := fun j hj => by
        rw [add_one_add_ofNat]
        exact (hlast (j + 1) (Nat.succ_pos j) (Nat.succ_lt_succ hj)).symm
      rw [read_loadWords_other htail ws _ hrest, BitVec.add_zero, Memory.read_write_self hm]
    | succ j =>
      rw [← add_one_add_ofNat]
      refine ih (Memory.write_wf hm a v) hw fun k hjk hk => ?_
      rw [add_one_add_ofNat, add_one_add_ofNat]
      exact hlast (k + 1) (Nat.succ_lt_succ hjk) (Nat.succ_lt_succ hk)

end

end Sys2Proof.Machine

namespace Sys2Proof.Proofs
open Sys2Proof.Machine

/-- Settles O59: by induction on the words of the image, the address of each being one more than the last. -/
theorem loaderStoresTheImage : Obligations.LoaderStoresTheImage := by
  intro origin ws tail m hm htail
  rw [List.append_assoc, load_image]
  exact ⟨_, rfl, fun j w hw hlast => read_loadWords_word htail hm hw hlast,
    fun a ha => read_loadWords_other htail ws m ha⟩

end Sys2Proof.Proofs
end

section
/-! PROOF. BR and NOP: the words of opcode BR by their mask (30_encoding.md R82, R92), and the branch by the flag that
COND holds (42_control.md R140; decision D3). -/

namespace Sys2Proof

/-! ### The words of opcode BR -/

theorem decode_br {w : Word} (h : fieldOpcode w = Opcode.br.bits) :
    decode w = decodeBr (w.getLsbD 11) (w.getLsbD 10) (w.getLsbD 9) (w.extractLsb' 0 9) := by
  rw [decode, h, Opcode.ofBits_bits]
  rfl

/-- The mask, bits 11:9 of a word, is 000 exactly if none of n, z, p is set. -/
theorem mask_eq_zero_iff (w : Word) :
    w.extractLsb' 9 3 = 0 ↔ (w.getLsbD 11 || w.getLsbD 10 || w.getLsbD 9) = false := by
  have hbit (i : Nat) (hi : i < 3) : (w.extractLsb' 9 3).getLsbD i = w.getLsbD (9 + i) := by
    rw [BitVec.getLsbD_extractLsb', decide_eq_true hi, Bool.true_and]
  rw [← hbit 2 (by decide), ← hbit 1 (by decide), ← hbit 0 (by decide)]
  generalize w.extractLsb' 9 3 = mask
  revert mask
  decide

end Sys2Proof

namespace Sys2Proof.Machine

/-! ### The branch test: each flag is one bit of COND, and meets one bit of the mask -/

section
variable (n z p : Bool)

@[simp] theorem branchTaken_condNegative : branchTaken n z p Config.condNegative = n := by
  revert n z p
  decide

@[simp] theorem branchTaken_condZero : branchTaken n z p Config.condZero = z := by
  revert n z p
  decide

@[simp] theorem branchTaken_condPositive : branchTaken n z p Config.condPositive = p := by
  revert n z p
  decide

end

theorem condLegal_cases {c : Word} (h : condLegal c = true) :
    c = Config.condNegative ∨ c = Config.condZero ∨ c = Config.condPositive := by
  simp only [condLegal, Bool.or_eq_true, beq_iff_eq] at h
  tauto

/-- With one flag in COND, the branch is taken exactly if the mask bit of that flag is set (R140). -/
theorem branchTaken_iff {c : Word} (h : condLegal c = true) (n z p : Bool) :
    branchTaken n z p c = true ↔ (n = true ∧ c = Config.condNegative) ∨ (z = true ∧ c = Config.condZero) ∨
      (p = true ∧ c = Config.condPositive) := by
  have hnz : Config.condNegative ≠ Config.condZero := by decide
  have hnp : Config.condNegative ≠ Config.condPositive := by decide
  have hzp : Config.condZero ≠ Config.condPositive := by decide
  obtain rfl | rfl | rfl := condLegal_cases h
  · simp [hnz, hnp]
  · simp [hnz.symm, hzp]
  · simp [hnp.symm, hzp.symm]

/-- A branch changes at most `pc` (R140). -/
theorem branch_eq (n z p : Bool) (off : BitVec 9) (s : State) :
    branch n z p off s =
      { s with pc := if branchTaken n z p s.cond = true then s.pc + off.signExtend 16 else s.pc } := by
  unfold branch
  split
  · rw [pcRel9_eq]
    rfl
  · rfl

theorem exec_br (n z p : Bool) (off : BitVec 9) (s : State) :
    exec (.br n z p off) s =
      .next { s with pc := if branchTaken n z p s.cond = true then s.pc + off.signExtend 16 else s.pc } :=
  congrArg Host.Outcome.next (branch_eq n z p off s)

end Sys2Proof.Machine

namespace Sys2Proof.Proofs
open Sys2Proof.Machine

/-- Settles O12: a word of opcode BR is decoded by its mask, and a legal COND holds one flag, which one mask bit
tests. -/
theorem branchTestsTheFlag : Obligations.BranchTestsTheFlag := by
  refine ⟨fun w hw => ?_, fun n z p off s hc => ?_, execNop_eq⟩
  · rw [decode_br hw, decodeBr]
    by_cases hmask : w.extractLsb' 9 3 = 0
    · rw [if_pos hmask, (mask_eq_zero_iff w).mp hmask]
      rfl
    · rw [if_neg hmask, if_pos (by rwa [mask_eq_zero_iff, Bool.not_eq_false] at hmask)]
  · rw [exec_br]
    simp only [branchTaken_iff hc]

end Sys2Proof.Proofs
end

section
/-! PROOF. The cycle: when a step is one, what its fetch gives, and how a step can end the run (40_instruction_cycle.md
R111 to R122). -/

namespace Sys2Proof

/-! ### The decoded instruction -/

theorem decode_kbsrReady : decode Config.kbsrReady = .rti 0 := by decide

theorem decode_kbsrIdle : decode Config.kbsrIdle = .nop 0 := by decide

theorem TrapName.core_instr (name : TrapName) : name.instr.core = .trap name.vector := by
  cases name <;> rfl

/-- A vector that names a service and one that names none both stand for TRAP with that vector (R92, R93). -/
theorem core_decodeTrap (v : Byte) : (decodeTrap v).core = .trap v := by
  unfold decodeTrap
  split
  case h_1 name hname => rw [TrapName.core_instr, TrapName.vector_of_ofVector hname]
  case h_2 => rfl

/-- Only a word of opcode TRAP decodes to TRAP or a service, and the vector is its low byte (R86; decision D5). -/
theorem trap_of_core_decode {w : Word} {v : Byte} (h : (decode w).core = .trap v) :
    fieldOpcode w = Opcode.trap.bits ∧ fieldTrapVect8 w = v := by
  cases ho : Opcode.ofBits (fieldOpcode w) <;> simp only [decode, ho] at h
  case trap =>
    rw [core_decodeTrap] at h
    exact ⟨by rw [← ho, Opcode.bits_ofBits], Instr.trap.inj h⟩
  case br => unfold decodeBr at h; split at h <;> cases h
  case jmp => unfold decodeJmp at h; split at h <;> cases h
  case add | and | jsr => split at h <;> cases h
  all_goals cases h

end Sys2Proof

namespace Sys2Proof.Machine

/-! ### The fetch -/

theorem cycle_of_value {w : Word} {s t : State} (h : memRead s.pc s = .value w t) :
    cycle s = exec (decode w) { t with pc := s.pc + 1 } := by
  obtain ⟨⟨-, hpc, -⟩, -⟩ := memRead_frame h
  rw [cycle, h, ← hpc]
  rfl

theorem cycle_of_stopped {s t : State} (h : memRead s.pc s = .stopped t) :
    cycle s = .next { t with pc := s.pc + 1 } := by
  have hpc : t.pc = s.pc := by
    obtain ⟨-, -, rfl⟩ := memRead_stopped h
    rfl
  rw [cycle, h, ← hpc]
  rfl

theorem cycle_plain {s : State} (h : s.pc ≠ Config.kbsrAddr) :
    cycle s = exec (decode (s.mem.read s.pc)) { s with pc := s.pc + 1 } :=
  cycle_of_value (memRead_plain h s)

/-- At a boundary with no host interrupt due, a step is a cycle; a counting host interrupt port counts one (R111,
R206). -/
theorem step_eq_cycle {s : State} {hs : Option Nat} (hrun : s.run = .running) (hserv : s.service = none)
    (hstop : (s.hostStop = none ∧ hs = none) ∨ ∃ n, s.hostStop = some (n + 1) ∧ hs = some n) :
    step s = cycle { s with hostStop := hs } := by
  have hboundary : step s = boundary s := by rw [step, stepOnce, hrun, hserv]
  rw [hboundary]
  rcases hstop with ⟨hnone, rfl⟩ | ⟨n, hsome, rfl⟩
  · have hsame : { s with hostStop := none } = s := by rw [← hnone]
    rw [hsame, boundary, hnone]
  · rw [boundary, hsome]

/-- Halting between services changes only the run state. -/
theorem halt_of_service_none {s : State} (h : s.service = none) (c : HaltCause) :
    s.halt c = { s with run := .halted c } :=
  congrArg (fun v => { s with run := .halted c, service := v }) h.symm

section
variable {s : State}

/-- The status 0x8000 runs as RTI (decisions D1, D30). -/
theorem cycle_status_key {k : Word} (hm : Memory.wf s.mem) (hpc : s.pc = Config.kbsrAddr)
    (hk : s.kbd.answer = .key k) :
    cycle s = .next { s.polled (polledMem k s.mem) with
      pc := Config.kbsrAddr + 1, diag := s.diag ++ [.reservedOpcode Config.kbsrReady (Config.kbsrAddr + 1)] } := by
  rw [cycle_of_value (hpc ▸ memRead_status_key hm hk), decode_kbsrReady, hpc]
  rfl

/-- The status 0x0000 runs as NOP (decisions D1, D30). -/
theorem cycle_status_noKey (hm : Memory.wf s.mem) (hpc : s.pc = Config.kbsrAddr) (hk : s.kbd.answer = .noKey) :
    cycle s = .next { s.polled (idleMem s.mem) with pc := Config.kbsrAddr + 1 } := by
  rw [cycle_of_value (hpc ▸ memRead_status_noKey hm hk), decode_kbsrIdle, hpc]
  exact execNop_eq 0 _

theorem cycle_status_interrupt (hserv : s.service = none) (hpc : s.pc = Config.kbsrAddr)
    (hk : s.kbd.answer = .interrupt) :
    cycle s = .next { s.afterCall with run := .halted .hostInterrupt, pc := Config.kbsrAddr + 1 } := by
  rw [cycle_of_stopped (hpc ▸ memRead_status_interrupt hk), hpc, halt_of_service_none (s := s.afterCall) hserv]

end

/-- A fetched TRAP is the stored word at `pc`: the status word is 0x8000 or 0x0000, and neither is a TRAP
(decision D1). -/
theorem memRead_trap {a w : Word} {s u : State} (hm : Memory.wf s.mem) (hr : memRead a s = .value w u)
    (hw : fieldOpcode w = Opcode.trap.bits) : a ≠ Config.kbsrAddr ∧ w = s.mem.read a ∧ u = s := by
  rcases memRead_value hr with hplain | ⟨-, rfl, ⟨k, -, rfl⟩ | ⟨-, rfl⟩⟩
  · exact hplain
  · have hready : fieldOpcode Config.kbsrReady = Opcode.trap.bits := polledMem_status hm k ▸ hw
    exact absurd hready (by decide)
  · have hidle : fieldOpcode Config.kbsrIdle = Opcode.trap.bits := idleMem_status hm ▸ hw
    exact absurd hidle (by decide)

/-! ### The run state after each operation -/

/-- The run state is kept, or a keyboard answer `Interrupt` or a due host interrupt halted the machine (R206). -/
def RunKept (s t : State) : Prop := t.run = s.run ∨ t.run = .halted .hostInterrupt

/-- The two ends a TRAP can bring: the HALT service, and the fault of an unknown vector (R176, R177). -/
inductive TrapEnds (v : Byte) (s : State) : State → Prop
  | halted (hv : v = 0x25) : TrapEnds v s (s.halt .trapHalt)
  | faulted (hv : TrapName.ofVector v = none) : TrapEnds v s (s.raise (.unknownTrapVector v))

theorem awaitKey_runKept {done : Word → State → State} (hdone : ∀ k t, (done k t).run = t.run) (wait : Service)
    (s : State) : RunKept s (awaitKey wait done s) :=
  awaitKey_induction wait done s (.inl rfl) (fun k t ht => ht.imp (hdone k t).trans (hdone k t).trans)
    (fun _ ht => ht) fun _ _ => .inr rfl

theorem printString_runKept (chars : Word → List Byte) (more : Word → Service) (fuel : Nat) (a : Word) (s : State) :
    RunKept s (printString chars more fuel a s) :=
  printString_induction chars more (fun _ _ ht => ht) (fun _ ht => ht) (fun _ _ => .inr rfl) (fun _ _ ht => ht)
    (fun _ ht => ht) (fun _ _ ht => ht) fuel a s (.inl rfl)

theorem getcRead_runKept (s : State) : RunKept s (getcRead s) :=
  awaitKey_runKept (fun _ _ => by rfl) .getc s

theorem inRead_runKept (s : State) : RunKept s (inRead s) :=
  awaitKey_runKept (fun _ _ => by rfl) .inKey s

theorem continueService_runKept (v : Service) (s : State) : RunKept s (continueService v s) := by
  cases v with
  | getc => exact getcRead_runKept s
  | inKey => exact inRead_runKept s
  | puts a => exact printString_runKept putsChars .puts Config.passLength a s
  | putsp a => exact printString_runKept putspChars .putsp Config.passLength a s

/-- An operation that begins with a read keeps the run state where the rest of it does. -/
theorem andThen_runKept {a : Word} {s t : State} {rest : Word → State → StepResult}
    (hrest : ∀ w u, rest w u = .next t → RunKept u t) (h : (memRead a s).andThen rest = .next t) : RunKept s t := by
  cases hr : memRead a s with
  | value w u =>
    obtain ⟨⟨-, -, -, hrun, -⟩, -⟩ := memRead_frame hr
    rw [hr] at h
    exact (hrest w u h).imp (·.trans hrun) id
  | stopped u =>
    rw [hr] at h
    cases h
    exact .inr (memRead_stopped_run hr)

theorem loadFrom_runKept {dr : Reg} {ea : Word} {s t : State} (h : loadFrom dr ea s = .next t) : RunKept s t :=
  andThen_runKept (fun _ _ hw => by cases hw; exact .inl rfl) h

theorem branch_run (n z p : Bool) (off : BitVec 9) (s : State) : (branch n z p off s).run = s.run := by
  rw [branch_eq]

/-- Of the six services only HALT ends the run. -/
theorem runTrap_run (name : TrapName) (s : State) :
    RunKept s (runTrap name s) ∨ TrapEnds name.vector s (runTrap name s) := by
  cases name with
  | getc => exact .inl (getcRead_runKept s)
  | out => exact .inl (.inl rfl)
  | puts => exact .inl (printString_runKept putsChars .puts Config.passLength (s.reg .r0) s)
  | inKey => exact .inl (inRead_runKept (s.writeChars Config.inPrompt))
  | putsp => exact .inl (printString_runKept putspChars .putsp Config.passLength (s.reg .r0) s)
  | halt => exact .inr (.halted rfl)

theorem execTrap_run {v : Byte} {s t : State} (h : execTrap v s = .next t) : RunKept s t ∨ TrapEnds v s t := by
  unfold execTrap at h
  split at h
  case h_1 name hname =>
    cases h
    rw [← TrapName.vector_of_ofVector hname]
    exact runTrap_run name s
  case h_2 hnone =>
    cases h
    exact .inr (.faulted hnone)

/-- A named service runs as TRAP with the service's vector (R92, R170). -/
theorem exec_service (name : TrapName) (s : State) : exec name.instr s = execTrap name.vector s := by
  cases name <;> rfl

/-- Only TRAP ends the run (R116, R117). -/
theorem exec_run {i : Instr} {s t : State} (h : exec i s = .next t) :
    RunKept s t ∨ ∃ v, i.core = .trap v ∧ TrapEnds v s t := by
  have service (name : TrapName) (hi : exec name.instr s = .next t) :
      RunKept s t ∨ ∃ v, name.instr.core = .trap v ∧ TrapEnds v s t :=
    (execTrap_run ((exec_service name s).symm.trans hi)).imp_right fun he => ⟨name.vector, name.core_instr, he⟩
  match i with
  | .trap v => exact (execTrap_run h).imp_right fun he => ⟨v, rfl, he⟩
  | .getc => exact service .getc h
  | .out => exact service .out h
  | .puts => exact service .puts h
  | .inKey => exact service .inKey h
  | .putsp => exact service .putsp h
  | .halt => exact service .halt h
  | .br n z p off => cases h; exact .inl (.inl (branch_run n z p off s))
  | .nop off => cases h; exact .inl (.inl (branch_run false false false off s))
  | .ld dr off | .ldr dr base off => exact .inl (loadFrom_runKept h)
  | .ldi dr off => exact .inl (andThen_runKept (fun _ _ hw => loadFrom_runKept hw) h)
  | .sti sr off => exact .inl (andThen_runKept (fun _ _ hw => by cases hw; exact .inl rfl) h)
  | .addReg .. | .addImm .. | .andReg .. | .andImm .. | .not .. | .lea .. | .st .. | .str .. | .jmp .. | .ret
  | .jsr .. | .jsrr .. | .rti .. | .res .. => cases h; exact .inl (.inl rfl)

/-! ### The run state after a step -/

theorem step_of_not_running {s : State} (h : s.run ≠ .running) : step s = .next s := by
  unfold step stepOnce
  split
  · rfl
  · rfl
  · exact absurd ‹_› h

/-- A step keeps the run state, is halted by the host, or is a cycle that fetched a TRAP which ends the run. -/
theorem step_run {s t : State} (hm : Memory.wf s.mem) (h : step s = .next t) :
    RunKept s t ∨ (s.service = none ∧ s.pc ≠ Config.kbsrAddr ∧
      fieldOpcode (s.mem.read s.pc) = Opcode.trap.bits ∧
      ∃ hs, TrapEnds (fieldTrapVect8 (s.mem.read s.pc)) { s with pc := s.pc + 1, hostStop := hs } t) := by
  rcases step_cases h with ⟨-, rfl⟩ | ⟨-, v, -, rfl⟩ | ⟨-, -, -, rfl⟩ | ⟨-, hserv, hs, hcycle, -⟩
  · exact .inl (.inl rfl)
  · exact .inl (continueService_runKept v s)
  · exact .inl (.inr rfl)
  · rcases cycle_cases hcycle with ⟨w, u, hr, he⟩ | ⟨u, hr, rfl⟩
    · obtain ⟨⟨-, -, -, hrun, -⟩, -⟩ := memRead_frame hr
      rcases exec_run he with hkept | ⟨v, hi, hend⟩
      · exact .inl (hkept.imp (·.trans hrun) id)
      · obtain ⟨hop, rfl⟩ := trap_of_core_decode hi
        obtain ⟨hpc, rfl, rfl⟩ := memRead_trap (s := { s with hostStop := hs }) hm hr hop
        exact .inr ⟨hserv, hpc, hop, hs, hend⟩
    · exact .inl (.inr ((State.advancePc_run u).trans (memRead_stopped_run hr)))

end Sys2Proof.Machine

namespace Sys2Proof.Proofs
open Sys2Proof.Machine

/-- Settles O50: the fetch polls, and the status is 0x8000, which is RTI, or 0x0000, which is NOP. -/
theorem fetchFromTheStatusWord : Obligations.FetchFromTheStatusWord := by
  intro s hs hm hrun hserv hstop hpc
  have hstep : step s = cycle { s with hostStop := hs } := step_eq_cycle hrun hserv hstop
  refine ⟨fun k hk => ⟨polledMem k s.mem, sameMemExcept_polledMem rfl, polledMem_status hm k, polledMem_data hm k,
    hstep.trans (cycle_status_key hm hpc hk)⟩,
    fun hk => ⟨idleMem s.mem, sameMemExcept_idleMem rfl, idleMem_status hm,
      hstep.trans (cycle_status_noKey hm hpc hk)⟩,
    fun hk => hstep.trans (cycle_status_interrupt hserv hpc hk)⟩

/-- Settles O57: a step that does not keep the run state ran a TRAP, and of its two ends only HALT is a success. -/
theorem successOnlyThroughTrapHalt : Obligations.SuccessOnlyThroughTrapHalt := by
  intro s t hm hrun h hsucc
  have hend : t.run = .halted .trapHalt := hsucc
  rcases step_run hm h with hkept | ⟨hserv, hpc, hop, hs, htrap⟩
  · simp [RunKept, hend, hrun] at hkept
  · cases htrap with
    | halted hv =>
      refine ⟨hserv, hpc, hop, hv, ⟨hs, ?_⟩, step_of_not_running (by simp)⟩
      exact halt_of_service_none (s := { s with pc := s.pc + 1, hostStop := hs }) hserv .trapHalt
    | faulted hv => cases hend

/-- Settles O49: with no host interrupt due a step is the cycle, and away from the status word its fetch is the stored
word. -/
theorem stepRunsTheDecodedInstruction : Obligations.StepRunsTheDecodedInstruction := by
  refine ⟨fun s hrun hserv hnone => ?_, fun s i hrun hserv hpc hi => ?_⟩
  · have hstep : step s = cycle s := by
      rw [step_eq_cycle hrun hserv (.inl ⟨hnone, rfl⟩), ← hnone]
    exact ⟨fun w t hr => hstep.trans (cycle_of_value hr), fun t hr => hstep.trans (cycle_of_stopped hr)⟩
  · have hcycle (hs : Option Nat) :
        cycle { s with hostStop := hs } = exec i { s with pc := s.pc + 1, hostStop := hs } := by
      subst hi
      exact cycle_plain (s := { s with hostStop := hs }) hpc
    refine ⟨fun hnone => ?_, fun n hsome => ?_⟩
    · rw [step_eq_cycle hrun hserv (.inl ⟨hnone, rfl⟩), hcycle, ← hnone]
    · rw [step_eq_cycle hrun hserv (.inr ⟨n, hsome, rfl⟩), hcycle]

end Sys2Proof.Proofs
end

section
/-! PROOF. ADD and AND (41_operate.md R130 to R133): the words of the two opcodes by their mode bit, and each form as
its result written to DR and COND. -/

namespace Sys2Proof

/-! ### The words of opcodes ADD and AND -/

theorem decode_add {w : Word} (h : fieldOpcode w = Opcode.add.bits) :
    decode w = if fieldImmMode w then .addImm (fieldDr w) (fieldSr1 w) (fieldImm5 w)
      else .addReg (fieldDr w) (fieldSr1 w) (fieldSr2 w) := by
  rw [decode, h, Opcode.ofBits_bits]

theorem decode_and {w : Word} (h : fieldOpcode w = Opcode.and.bits) :
    decode w = if fieldImmMode w then .andImm (fieldDr w) (fieldSr1 w) (fieldImm5 w)
      else .andReg (fieldDr w) (fieldSr1 w) (fieldSr2 w) := by
  rw [decode, h, Opcode.ofBits_bits]

end Sys2Proof

namespace Sys2Proof.Machine

/-! ### The results, of the sources as they were before DR is written (decision D25) -/

/-- Writing a result changes DR and COND only (R26). -/
theorem writeResult_eq (dr : Reg) (v : Word) (s : State) :
    s.writeResult dr v = { s with regs := s.regs.set dr v, cond := flags v } := rfl

theorem sext_imm5 (imm5 : BitVec 5) : sext imm5 = imm5.signExtend 16 :=
  sext_eq_signExtend imm5 (by decide) (by decide)

theorem exec_addReg (dr sr1 sr2 : Reg) (s : State) :
    exec (.addReg dr sr1 sr2) s = .next (s.writeResult dr (s.reg sr1 + s.reg sr2)) := rfl

theorem exec_addImm (dr sr1 : Reg) (imm5 : BitVec 5) (s : State) :
    exec (.addImm dr sr1 imm5) s = .next (s.writeResult dr (s.reg sr1 + imm5.signExtend 16)) :=
  congrArg (fun v => Host.Outcome.next (s.writeResult dr (s.reg sr1 + v))) (sext_imm5 imm5)

theorem exec_andReg (dr sr1 sr2 : Reg) (s : State) :
    exec (.andReg dr sr1 sr2) s = .next (s.writeResult dr (s.reg sr1 &&& s.reg sr2)) := rfl

theorem exec_andImm (dr sr1 : Reg) (imm5 : BitVec 5) (s : State) :
    exec (.andImm dr sr1 imm5) s = .next (s.writeResult dr (s.reg sr1 &&& imm5.signExtend 16)) :=
  congrArg (fun v => Host.Outcome.next (s.writeResult dr (s.reg sr1 &&& v))) (sext_imm5 imm5)

end Sys2Proof.Machine

namespace Sys2Proof.Proofs
open Sys2Proof.Machine

/-- Settles O9: bit 5 chooses the form that `decode` gives a word of opcode ADD, and each form writes its sum to DR and
COND. -/
theorem addWritesTheSum : Obligations.AddWritesTheSum := by
  refine ⟨fun w hw hmode => ?_, fun w hw hmode => ?_, fun dr sr1 sr2 s => ?_, fun dr sr1 imm5 s => ?_⟩
  · rw [decode_add hw, fieldImmMode, hmode]
    rfl
  · rw [decode_add hw, fieldImmMode, hmode]
    rfl
  · rw [exec_addReg, writeResult_eq]
  · rw [exec_addImm, writeResult_eq]

/-- Settles O10: bit 5 chooses the form that `decode` gives a word of opcode AND, and each form writes its conjunction
to DR and COND. -/
theorem andWritesTheConjunction : Obligations.AndWritesTheConjunction := by
  refine ⟨fun w hw hmode => ?_, fun w hw hmode => ?_, fun dr sr1 sr2 s => ?_, fun dr sr1 imm5 s => ?_⟩
  · rw [decode_and hw, fieldImmMode, hmode]
    rfl
  · rw [decode_and hw, fieldImmMode, hmode]
    rfl
  · rw [exec_andReg, writeResult_eq]
  · rw [exec_andImm, writeResult_eq]

end Sys2Proof.Proofs
end

section
/-! PROOF. Control transfers (42_control.md R141 to R146): the alias rows as the instructions they are names of
(30_encoding.md R92), the jumps, and the link that a call leaves in R7. -/

namespace Sys2Proof

/-! ### The words of opcodes JMP and JSR -/

theorem decode_jmp {w : Word} (h : fieldOpcode w = Opcode.jmp.bits) : decode w = decodeJmp (fieldSr1 w) := by
  rw [decode, h, Opcode.ofBits_bits]

theorem decode_jsr {w : Word} (h : fieldOpcode w = Opcode.jsr.bits) :
    decode w = if fieldJsrMode w then .jsr (fieldPcOffset11 w) else .jsrr (fieldSr1 w) := by
  rw [decode, h, Opcode.ofBits_bits]

end Sys2Proof

namespace Sys2Proof.Machine

/-! ### Alias rows and their core forms -/

theorem exec_service_core (name : TrapName) (s : State) : exec name.instr s = exec name.instr.core s :=
  (exec_service name s).trans (congrArg (exec · s) name.core_instr).symm

/-! ### Jumps and calls -/

theorem pcRel11_eq (off : BitVec 11) (s : State) : pcRel11 off s = s.pc + off.signExtend 16 :=
  congrArg (s.pc + ·) (sext_eq_signExtend off (by decide) (by decide))

theorem exec_jmp (base : Reg) (s : State) : exec (.jmp base) s = .next (s.setPc (s.reg base)) := rfl

theorem exec_ret (s : State) : exec .ret s = .next (s.setPc (s.reg .r7)) := rfl

theorem exec_jsr (off : BitVec 11) (s : State) :
    exec (.jsr off) s = .next ((s.setReg .r7 s.pc).setPc (s.pc + off.signExtend 16)) :=
  congrArg (fun a => Host.Outcome.next ((s.setReg .r7 s.pc).setPc a)) (pcRel11_eq off s)

/-- JSRR reads its target after the link is written (decision D16). -/
theorem exec_jsrr (base : Reg) (s : State) :
    exec (.jsrr base) s = .next ((s.setReg .r7 s.pc).setPc ((s.setReg .r7 s.pc).reg base)) := rfl

/-- Wherever a call goes, R7 holds its return address (R143, R144). -/
theorem link_reg (s : State) (target : Word) : ((s.setReg .r7 s.pc).setPc target).reg .r7 = s.pc := by
  rw [State.setPc_reg, State.setReg_reg, if_pos rfl]

end Sys2Proof.Machine

namespace Sys2Proof.Proofs
open Sys2Proof.Machine

/-- Settles O5: RET and NOP share the operation of their core forms, a service is its vector's TRAP, and every other
instruction is its own core form. -/
theorem aliasRunsAsItsCoreForm : Obligations.AliasRunsAsItsCoreForm := by
  intro i s
  match i with
  | .ret | .nop _ => rfl
  | .getc => exact exec_service_core .getc s
  | .out => exact exec_service_core .out s
  | .puts => exact exec_service_core .puts s
  | .inKey => exact exec_service_core .inKey s
  | .putsp => exact exec_service_core .putsp s
  | .halt => exact exec_service_core .halt s
  | .br .. | .addReg .. | .addImm .. | .ld .. | .st .. | .jsr .. | .jsrr .. | .andReg .. | .andImm .. | .ldr ..
  | .str .. | .rti .. | .not .. | .ldi .. | .sti .. | .jmp .. | .res .. | .lea .. | .trap .. => rfl

/-- Settles O14: the base field alone chooses between RET and JMP, and a jump writes `pc` only. -/
theorem jumpGoesToTheRegister : Obligations.JumpGoesToTheRegister :=
  ⟨fun _ hw => decode_jmp hw, exec_jmp, exec_ret⟩

/-- Settles O15: bit 11 chooses the offset form, which writes the link and `pc` only. -/
theorem jsrLinksAndJumps : Obligations.JsrLinksAndJumps := by
  refine ⟨fun w hw hmode => ?_, exec_jsr⟩
  rw [decode_jsr hw, fieldJsrMode, if_pos hmode]
  rfl

/-- Settles O17: either call leaves its incremented `pc` in R7, and RET goes to R7. -/
theorem callThenReturnComesBack : Obligations.CallThenReturnComesBack := by
  intro i s t u hcall hexec hkept
  have hlink : t.reg .r7 = s.pc := by
    obtain ⟨off, rfl⟩ | ⟨base, rfl⟩ := hcall
    · cases (exec_jsr off s).symm.trans hexec
      exact link_reg s _
    · cases (exec_jsrr base s).symm.trans hexec
      exact link_reg s _
  rw [exec_ret, hkept, hlink]
  rfl

end Sys2Proof.Proofs
end

section
/-! PROOF. Loads by the words their reads give (43_load.md R150 to R152), and LEA, which reads none (R153). -/

namespace Sys2Proof

/-! ### The words of opcodes LD, LDR, LDI and LEA -/

theorem decode_ld {w : Word} (h : fieldOpcode w = Opcode.ld.bits) : decode w = .ld (fieldDr w) (fieldPcOffset9 w) := by
  rw [decode, h, Opcode.ofBits_bits]

theorem decode_ldr {w : Word} (h : fieldOpcode w = Opcode.ldr.bits) :
    decode w = .ldr (fieldDr w) (fieldSr1 w) (fieldOffset6 w) := by
  rw [decode, h, Opcode.ofBits_bits]

theorem decode_ldi {w : Word} (h : fieldOpcode w = Opcode.ldi.bits) :
    decode w = .ldi (fieldDr w) (fieldPcOffset9 w) := by
  rw [decode, h, Opcode.ofBits_bits]

theorem decode_lea {w : Word} (h : fieldOpcode w = Opcode.lea.bits) :
    decode w = .lea (fieldDr w) (fieldPcOffset9 w) := by
  rw [decode, h, Opcode.ofBits_bits]

end Sys2Proof

namespace Sys2Proof.Machine

/-! ### The results of a load and of LEA -/

theorem memRead_regs {a w : Word} {s t : State} (h : memRead a s = .value w t) : t.regs = s.regs := by
  obtain ⟨⟨hregs, -⟩, -⟩ := memRead_frame h
  exact hregs

/-- A load whose read gives a word writes it to DR, among the registers as they were before the read, and its flag to
COND (R150, R154). -/
theorem loadFrom_value {ea v : Word} {s t : State} (h : memRead ea s = .value v t) (dr : Reg) :
    loadFrom dr ea s = .next { t with regs := s.regs.set dr v, cond := flags v } := by
  rw [loadFrom, h, andThen_value, writeResult_eq, memRead_regs h]

theorem exec_lea (dr : Reg) (off : BitVec 9) (s : State) :
    exec (.lea dr off) s = .next (s.writeResult dr (s.pc + off.signExtend 16)) :=
  congrArg (fun a => Host.Outcome.next (s.writeResult dr a)) (pcRel9_eq off s)

end Sys2Proof.Machine

namespace Sys2Proof.Proofs
open Sys2Proof.Machine

/-- Settles O21: LD and LDR are one load from their address; LDI is one load, from the state its pointer's read left,
which has the registers of the first. -/
theorem loadsReadThroughMemRead : Obligations.LoadsReadThroughMemRead := by
  refine ⟨fun w hw => decode_ld hw, fun w hw => decode_ldr hw, fun w hw => decode_ldi hw, fun dr off s t v h => ?_,
    fun dr base off s t v h => ?_, fun dr off s t u ea v hp h => ?_⟩
  · exact (exec_ld dr off s).trans (loadFrom_value h dr)
  · exact (exec_ldr dr base off s).trans (loadFrom_value h dr)
  · rw [exec_ldi, hp, andThen_value, loadFrom_value h, memRead_regs hp]

/-- Settles O22: LEA is its address written to DR and COND. -/
theorem leaWritesTheAddress : Obligations.LeaWritesTheAddress := by
  refine ⟨fun w hw => decode_lea hw, fun dr off s => ?_⟩
  rw [exec_lea, writeResult_eq]

end Sys2Proof.Proofs
end

section
/-! PROOF. Stores (44_store.md R160 to R163): each is one write at its effective address, the device words included. -/

namespace Sys2Proof

/-! ### The words of opcodes ST, STR and STI -/

theorem decode_st {w : Word} (h : fieldOpcode w = Opcode.st.bits) : decode w = .st (fieldDr w) (fieldPcOffset9 w) := by
  rw [decode, h, Opcode.ofBits_bits]

theorem decode_str {w : Word} (h : fieldOpcode w = Opcode.str.bits) :
    decode w = .str (fieldDr w) (fieldSr1 w) (fieldOffset6 w) := by
  rw [decode, h, Opcode.ofBits_bits]

theorem decode_sti {w : Word} (h : fieldOpcode w = Opcode.sti.bits) :
    decode w = .sti (fieldDr w) (fieldPcOffset9 w) := by
  rw [decode, h, Opcode.ofBits_bits]

end Sys2Proof

namespace Sys2Proof.Machine

/-! ### Stores to a known address -/

theorem exec_st (sr : Reg) (off : BitVec 9) (s : State) :
    exec (.st sr off) s = storeTo sr (s.pc + off.signExtend 16) s :=
  congrArg (storeTo sr · s) (pcRel9_eq off s)

theorem exec_str (sr base : Reg) (off : BitVec 6) (s : State) :
    exec (.str sr base off) s = storeTo sr (s.reg base + off.signExtend 16) s :=
  congrArg (storeTo sr · s) (baseOff_eq base off s)

/-- STI whose pointer word is not the status word stores at the address held there (R161). -/
theorem exec_sti_plain {off : BitVec 9} {s : State} (h : s.pc + off.signExtend 16 ≠ Config.kbsrAddr) (sr : Reg) :
    exec (.sti sr off) s = storeTo sr (s.mem.read (s.pc + off.signExtend 16)) s := by
  rw [exec_sti, memRead_plain h, andThen_value]

/-- A store changes memory only, and there the word at its address only (R53, R163). -/
theorem storeTo_writes_one_word {s : State} (hm : Memory.wf s.mem) (sr : Reg) (ea : Word) :
    ∃ m, storeTo sr ea s = .next { s with mem := m } ∧ m.read ea = s.reg sr ∧
      ∀ a, a ≠ ea → m.read a = s.mem.read a :=
  ⟨s.mem.write ea (s.reg sr), rfl, Memory.read_write_self hm ea _, fun _ ha => Memory.read_write_ne s.mem _ ha⟩

end Sys2Proof.Machine

namespace Sys2Proof.Proofs
open Sys2Proof.Machine

/-- Settles O25: each of the three stores is one write at its effective address. -/
theorem storesChangeOneWord : Obligations.StoresChangeOneWord := by
  refine ⟨fun _ hw => decode_st hw, fun _ hw => decode_str hw, fun _ hw => decode_sti hw, fun i sr ea s hm hi => ?_⟩
  have hstore : exec i s = storeTo sr ea s := by
    obtain ⟨off, rfl, rfl⟩ | ⟨base, off, rfl, rfl⟩ | ⟨off, rfl, hpointer, rfl⟩ := hi
    · exact exec_st sr off s
    · exact exec_str sr base off s
    · exact exec_sti_plain hpointer sr
  rw [hstore]
  exact storeTo_writes_one_word hm sr ea

end Sys2Proof.Proofs
end

section
/-! PROOF. TRAP and the six services (45_trap.md R170 to R181): what they leave alone, and that
only the string services look at memory. An operation that neither reads nor writes memory runs alike from `s` and from
`s.withMem m` and carries the memory along. -/

namespace Sys2Proof.Machine

/-! ### The meaning of a TRAP -/

/-- `i` is TRAP with the vector of the service `name`, or the alias of that service (R92, R170). -/
structure RunsService (i : Instr) (name : TrapName) : Prop where
  core : i.core = .trap name.vector
  destinations : i.destinations = name.instr.destinations
  prints : i.prints = name.instr.prints
  exec : ∀ s, Machine.exec i s = .next (runTrap name s)

theorem runsService_instr (name : TrapName) : RunsService name.instr name := by
  cases name <;> exact ⟨rfl, rfl, rfl, fun _ => rfl⟩

theorem runsService_trap {v : Byte} {name : TrapName} (h : TrapName.ofVector v = some name) :
    RunsService (.trap v) name := by
  obtain rfl : name.vector = v := TrapName.vector_of_ofVector h
  cases name <;> exact ⟨rfl, rfl, rfl, fun _ => rfl⟩

theorem exec_trap_unknown {v : Byte} (h : TrapName.ofVector v = none) (s : State) :
    exec (.trap v) s = .next (s.raise (.unknownTrapVector v)) := by
  show execTrap v s = _
  rw [execTrap, h]

/-- A TRAP runs a service, or faults the machine (R170, R177). -/
theorem trap_cases {i : Instr} {v : Byte} (h : i.core = .trap v) :
    (∃ name, RunsService i name) ∨ ∀ s, exec i s = .next (s.raise (.unknownTrapVector v)) := by
  match i, h with
  | .getc, _ => exact .inl ⟨.getc, runsService_instr .getc⟩
  | .out, _ => exact .inl ⟨.out, runsService_instr .out⟩
  | .puts, _ => exact .inl ⟨.puts, runsService_instr .puts⟩
  | .inKey, _ => exact .inl ⟨.inKey, runsService_instr .inKey⟩
  | .putsp, _ => exact .inl ⟨.putsp, runsService_instr .putsp⟩
  | .halt, _ => exact .inl ⟨.halt, runsService_instr .halt⟩
  | .trap _, rfl =>
    cases hv : TrapName.ofVector v with
    | some name => exact .inl ⟨name, runsService_trap hv⟩
    | none => exact .inr (exec_trap_unknown hv)

theorem setsCond_of_trap {i : Instr} {v : Byte} (h : i.core = .trap v) : i.setsCond = false := by
  match i, h with
  | .trap _, _ | .getc, _ | .out, _ | .puts, _ | .inKey, _ | .putsp, _ | .halt, _ => rfl

/-! ### Registers and pc -/

theorem RegFile.ext_get {f g : RegFile} (h : ∀ r, f.get r = g.get r) : f = g := by
  cases f
  cases g
  rw [RegFile.mk.injEq]
  exact ⟨h .r0, h .r1, h .r2, h .r3, h .r4, h .r5, h .r6, h .r7⟩

theorem regs_eq_of_sameRegsExcept_nil {s t : State} (h : SameRegsExcept [] s t) : t.regs = s.regs :=
  RegFile.ext_get fun r => h r List.not_mem_nil

theorem sameRegsExcept_mono {ds es : List Reg} (hsub : ds ⊆ es) {s t : State} (h : SameRegsExcept ds s t) :
    SameRegsExcept es s t :=
  fun r hr => h r fun hd => hr (hsub hd)

/-- `t` has the pc of `s`, and its registers but for `ds`. -/
def KeepsPcAndRegs (ds : List Reg) (s t : State) : Prop := t.pc = s.pc ∧ SameRegsExcept ds s t

theorem keepsPcAndRegs_of_eq {s t : State} (hpc : t.pc = s.pc) (hregs : t.regs = s.regs) (ds : List Reg) :
    KeepsPcAndRegs ds s t :=
  ⟨hpc, fun r _ => congrArg (RegFile.get · r) hregs⟩

theorem KeepsPcAndRegs.setReg {ds : List Reg} {s t : State} (h : KeepsPcAndRegs ds s t) {r : Reg} (hr : r ∈ ds)
    (v : Word) : KeepsPcAndRegs ds s (t.setReg r v) := by
  obtain ⟨hpc, hregs⟩ := h
  refine ⟨hpc, fun q hq => ?_⟩
  have hqr : q ≠ r := fun e => hq (e ▸ hr)
  rw [State.setReg_reg, if_neg hqr, hregs q hq]

theorem getcRead_keepsPcAndRegs (s : State) : KeepsPcAndRegs [.r0] s (getcRead s) :=
  awaitKey_induction _ _ s (keepsPcAndRegs_of_eq rfl rfl _) (fun k _ ht => ht.setReg (by decide) k)
    (fun _ ht => ht) fun _ ht => ht

theorem inRead_keepsPcAndRegs (s : State) : KeepsPcAndRegs [.r0] s (inRead s) :=
  awaitKey_induction _ _ s (keepsPcAndRegs_of_eq rfl rfl _)
    (fun k t ht => KeepsPcAndRegs.setReg (t := t.writeChars [k.lowByte]) ht (by decide) k)
    (fun _ ht => ht) fun _ ht => ht

/-- The string loop writes no register and no pc (R173, R175). -/
theorem printString_keepsPcAndRegs (chars : Word → List Byte) (more : Word → Service) (fuel : Nat) (a : Word)
    (s : State) : KeepsPcAndRegs [] s (printString chars more fuel a s) :=
  printString_induction chars more (fun _ _ ht => ht) (fun _ ht => ht) (fun _ ht => ht) (fun _ _ ht => ht)
    (fun _ ht => ht) (fun _ _ ht => ht) fuel a s (keepsPcAndRegs_of_eq rfl rfl _)

/-- No service writes pc or a register other than its destination (R178). -/
theorem runTrap_keepsPcAndRegs (name : TrapName) (s : State) :
    KeepsPcAndRegs name.instr.destinations s (runTrap name s) := by
  cases name with
  | getc => exact getcRead_keepsPcAndRegs s
  | out => exact keepsPcAndRegs_of_eq rfl rfl _
  | puts => exact printString_keepsPcAndRegs putsChars .puts Config.passLength (s.reg .r0) s
  | inKey => exact inRead_keepsPcAndRegs (s.writeChars Config.inPrompt)
  | putsp => exact printString_keepsPcAndRegs putspChars .putsp Config.passLength (s.reg .r0) s
  | halt => exact keepsPcAndRegs_of_eq rfl rfl _

theorem destinations_instr_subset (name : TrapName) : name.instr.destinations ⊆ [.r0] := by
  cases name <;> decide

/-- No TRAP writes pc or a register other than its destination, which can only be R0 (R178). -/
theorem trap_keepsPcAndRegs {i : Instr} {v : Byte} (hi : i.core = .trap v) {s t : State} (h : exec i s = .next t) :
    KeepsPcAndRegs i.destinations s t ∧ SameRegsExcept [.r0] s t := by
  rcases trap_cases hi with ⟨name, hname⟩ | hfault
  · cases (hname.exec s).symm.trans h
    have hkeeps : KeepsPcAndRegs i.destinations s (runTrap name s) := hname.destinations ▸ runTrap_keepsPcAndRegs name s
    have hsub : i.destinations ⊆ [.r0] := hname.destinations ▸ destinations_instr_subset name
    exact ⟨hkeeps, sameRegsExcept_mono hsub hkeeps.2⟩
  · cases (hfault s).symm.trans h
    exact ⟨keepsPcAndRegs_of_eq rfl rfl _, fun _ _ => rfl⟩

/-! ### Another content of memory -/

/-- `s` with the memory `m`. -/
def State.withMem (m : Memory) (s : State) : State := { s with mem := m }

/-- The wait for a key carries memory along where what it does with the key does (R119). -/
theorem awaitKey_withMem {done : Word → State → State} (hdone : ∀ k s m, done k (s.withMem m) = (done k s).withMem m)
    (wait : Service) (s : State) (m : Memory) :
    awaitKey wait done (s.withMem m) = (awaitKey wait done s).withMem m := by
  rcases awaitKey_cases wait done s with ⟨k, ha, e⟩ | ⟨ha, e⟩ | ⟨ha, e⟩ <;> rw [e]
  · exact (awaitKey_key (s := s.withMem m) ha wait done).trans (congrArg State.serviceDone (hdone k s.afterCall m))
  · exact awaitKey_noKey (s := s.withMem m) ha wait done
  · exact awaitKey_interrupt (s := s.withMem m) ha wait done

theorem getcRead_withMem (s : State) (m : Memory) : getcRead (s.withMem m) = (getcRead s).withMem m :=
  awaitKey_withMem (fun _ _ _ => rfl) .getc s m

theorem inRead_withMem (s : State) (m : Memory) : inRead (s.withMem m) = (inRead s).withMem m :=
  awaitKey_withMem (fun _ _ _ => rfl) .inKey s m

/-- Every service but the two that print a string carries memory along. -/
theorem runTrap_withMem {name : TrapName} (hputs : name ≠ .puts) (hputsp : name ≠ .putsp) (s : State) (m : Memory) :
    runTrap name (s.withMem m) = (runTrap name s).withMem m := by
  cases name with
  | getc => exact getcRead_withMem s m
  | out => rfl
  | puts => exact absurd rfl hputs
  | inKey => exact inRead_withMem (s.writeChars Config.inPrompt) m
  | putsp => exact absurd rfl hputsp
  | halt => rfl

/-- Every TRAP but the two that print a string carries memory along, so it reads no vector table (R178). -/
theorem trap_withMem {i : Instr} {v : Byte} (hi : i.core = .trap v) (hputs : i.core ≠ .trap 0x22)
    (hputsp : i.core ≠ .trap 0x24) {s t : State} (h : exec i s = .next t) (m : Memory) :
    exec i (s.withMem m) = .next (t.withMem m) := by
  rcases trap_cases hi with ⟨name, hname⟩ | hfault
  · cases (hname.exec s).symm.trans h
    rw [hname.exec, runTrap_withMem]
    · rintro rfl
      exact hputs hname.core
    · rintro rfl
      exact hputsp hname.core
  · cases (hfault s).symm.trans h
    exact hfault _

/-- What carries every memory along keeps the memory it has. -/
theorem mem_eq_of_exec_withMem {i : Instr} {s t : State} (h : exec i s = .next t)
    (hcarry : exec i (s.withMem s.mem) = .next (t.withMem s.mem)) : t.mem = s.mem := by
  have ht : t = t.withMem s.mem := Host.Outcome.next.inj (h.symm.trans hcarry)
  rw [ht]
  rfl

end Sys2Proof.Machine

namespace Sys2Proof.Proofs
open Sys2Proof.Machine

/-- Settles O38: a TRAP runs a service or faults, neither of which writes pc, COND or a register but R0, and where no
string is printed it runs alike from every memory. -/
theorem trapLinksNothing : Obligations.TrapLinksNothing := by
  intro i s t hi h
  obtain ⟨v, hv⟩ : ∃ v, i.core = .trap v := by
    rcases hi with ⟨v, rfl⟩ | hservice
    · exact ⟨v, rfl⟩
    · obtain ⟨name, -, rfl⟩ := List.mem_map.1 (show i ∈ TrapName.all.map TrapName.instr from hservice)
      exact ⟨name.vector, name.core_instr⟩
  obtain ⟨⟨hpc, hregs⟩, hr0⟩ := trap_keepsPcAndRegs hv h
  refine ⟨hpc, exec_cond (setsCond_of_trap hv) h, hr0, fun hd => regs_eq_of_sameRegsExcept_nil (hd ▸ hregs),
    fun hputs hputsp => ?_⟩
  have hcarry (m : Memory) : exec i (s.withMem m) = .next (t.withMem m) := trap_withMem hv hputs hputsp h m
  exact ⟨mem_eq_of_exec_withMem h (hcarry s.mem), hcarry⟩

end Sys2Proof.Proofs
end

section
/-! PROOF. The console (45_trap.md R181): what each operation appends to it. -/

namespace Sys2Proof.Machine

/-! ### The services -/

theorem getcRead_console (s : State) : (getcRead s).console = s.console :=
  awaitKey_induction (P := fun t => t.console = s.console) .getc _ s rfl (fun _ _ ht => ht) (fun _ ht => ht)
    fun _ ht => ht

/-- IN only appends its echo (R174). -/
theorem inRead_console_grows (s : State) : s.console <+: (inRead s).console :=
  awaitKey_induction (P := fun t => s.console <+: t.console) .inKey _ s List.prefix_rfl
    (fun _ _ ht => ht.trans (List.prefix_append _ _)) (fun _ ht => ht) fun _ ht => ht

/-- The string loop only appends characters (R173, R175). -/
theorem printString_console_grows (chars : Word → List Byte) (more : Word → Service) (fuel : Nat) (a : Word)
    (s : State) : s.console <+: (printString chars more fuel a s).console :=
  printString_induction (P := fun t => s.console <+: t.console) chars more (fun _ _ ht => ht) (fun _ ht => ht)
    (fun _ ht => ht) (fun _ _ ht => ht.trans (List.prefix_append _ _)) (fun _ ht => ht) (fun _ _ ht => ht) fuel a s
    List.prefix_rfl

/-- A service that goes on in a later step only appends. -/
theorem continueService_console_grows (v : Service) (s : State) : s.console <+: (continueService v s).console := by
  cases v with
  | getc => exact getcRead_console s ▸ List.prefix_rfl
  | inKey => exact inRead_console_grows s
  | puts a => exact printString_console_grows putsChars .puts Config.passLength a s
  | putsp a => exact printString_console_grows putspChars .putsp Config.passLength a s

/-! ### An instruction -/

/-- The console is as it was, or `i` is one of the four that print and the console has only grown (R181). -/
def ConsoleKept (i : Instr) (s t : State) : Prop :=
  t.console = s.console ∨ i.prints = true ∧ s.console <+: t.console

theorem ConsoleKept.grows {i : Instr} {s t : State} (h : ConsoleKept i s t) : s.console <+: t.console :=
  h.elim (· ▸ List.prefix_rfl) And.right

theorem ConsoleKept.eq_of_silent {i : Instr} {s t : State} (h : ConsoleKept i s t) (hi : i.prints = false) :
    t.console = s.console :=
  h.resolve_right fun hp => Bool.false_ne_true (hi.symm.trans hp.1)

theorem runTrap_consoleKept (name : TrapName) (s : State) : ConsoleKept name.instr s (runTrap name s) := by
  cases name with
  | getc => exact .inl (getcRead_console s)
  | out => exact .inr ⟨rfl, List.prefix_append _ _⟩
  | puts => exact .inr ⟨rfl, printString_console_grows putsChars .puts Config.passLength (s.reg .r0) s⟩
  | inKey =>
    exact .inr ⟨rfl, (List.prefix_append s.console Config.inPrompt).trans
      (inRead_console_grows (s.writeChars Config.inPrompt))⟩
  | putsp => exact .inr ⟨rfl, printString_console_grows putspChars .putsp Config.passLength (s.reg .r0) s⟩
  | halt => exact .inl rfl

theorem trap_consoleKept {i : Instr} {v : Byte} (hi : i.core = .trap v) {s t : State} (h : exec i s = .next t) :
    ConsoleKept i s t := by
  rcases trap_cases hi with ⟨name, hname⟩ | hfault
  · cases (hname.exec s).symm.trans h
    exact (runTrap_consoleKept name s).imp_right (And.imp_left hname.prints.trans)
  · cases (hfault s).symm.trans h
    exact .inl rfl

theorem memRead_stopped_console {a : Word} {s u : State} (h : memRead a s = .stopped u) : u.console = s.console := by
  obtain ⟨-, -, rfl⟩ := memRead_stopped h
  rfl

theorem memRead_console {a w : Word} {s u : State} (h : memRead a s = .value w u) : u.console = s.console := by
  obtain ⟨⟨-, -, -, -, -, -, hconsole, -⟩, -⟩ := memRead_frame h
  exact hconsole

/-- An operation that begins with a read keeps the console where the rest of it does. -/
theorem andThen_console {a : Word} {s t : State} {rest : Word → State → StepResult}
    (hrest : ∀ w u, rest w u = .next t → t.console = u.console) (h : (memRead a s).andThen rest = .next t) :
    t.console = s.console := by
  cases hr : memRead a s with
  | value w u =>
    rw [hr] at h
    exact (hrest w u h).trans (memRead_console hr)
  | stopped u =>
    rw [hr] at h
    cases h
    exact memRead_stopped_console hr

theorem loadFrom_console {dr : Reg} {ea : Word} {s t : State} (h : loadFrom dr ea s = .next t) :
    t.console = s.console :=
  andThen_console (fun _ _ hw => by cases hw; rfl) h

theorem branch_console (n z p : Bool) (off : BitVec 9) (s : State) : (branch n z p off s).console = s.console := by
  rw [branch_eq]

/-- Only the four services that print write to the console, and they only append (R181). -/
theorem exec_consoleKept {i : Instr} {s t : State} (h : exec i s = .next t) : ConsoleKept i s t := by
  match i with
  | .trap _ | .getc | .out | .puts | .inKey | .putsp | .halt => exact trap_consoleKept rfl h
  | .br n z p off => cases h; exact .inl (branch_console n z p off s)
  | .nop off => cases h; exact .inl (branch_console false false false off s)
  | .ld dr off | .ldr dr base off => exact .inl (loadFrom_console h)
  | .ldi dr off => exact .inl (andThen_console (fun _ _ hw => loadFrom_console hw) h)
  | .sti sr off => exact .inl (andThen_console (fun _ _ hw => by cases hw; rfl) h)
  | .addReg .. | .addImm .. | .andReg .. | .andImm .. | .not .. | .lea .. | .st .. | .str .. | .jmp .. | .ret
  | .jsr .. | .jsrr .. | .rti .. | .res .. => cases h; exact .inl rfl

/-! ### A step -/

theorem cycle_console_grows {s t : State} (h : cycle s = .next t) : s.console <+: t.console := by
  rcases cycle_cases h with ⟨w, u, hr, he⟩ | ⟨u, hr, rfl⟩
  · rw [← memRead_console hr]
    exact (exec_consoleKept he).grows
  · exact memRead_stopped_console hr ▸ List.prefix_rfl

/-- Of the four things a step can do none takes a byte back (R181). -/
theorem step_console_grows {s t : State} (h : step s = .next t) : s.console <+: t.console := by
  rcases step_cases h with ⟨-, rfl⟩ | ⟨-, v, -, rfl⟩ | ⟨-, -, -, rfl⟩ | ⟨-, -, hs, hcycle, -⟩
  · exact List.prefix_rfl
  · exact continueService_console_grows v s
  · exact List.prefix_rfl
  · exact cycle_console_grows (s := { s with hostStop := hs }) hcycle

end Sys2Proof.Machine

namespace Sys2Proof.Proofs
open Sys2Proof.Machine

/-- Settles O48: an instruction that does not print keeps the console, and a step only adds bytes at its end. -/
theorem consoleOnlyGrows : Obligations.ConsoleOnlyGrows := by
  refine ⟨fun i s t hi h => (exec_consoleKept h).eq_of_silent hi, fun s t h => ?_⟩
  obtain ⟨bs, hbs⟩ := step_console_grows h
  exact ⟨bs, hbs.symm⟩

end Sys2Proof.Proofs
end

section
/-! PROOF. RTI and RES (46_reserved.md R190 to R192): the instruction word in the diagnostic is rebuilt from the opcode
and the twelve ignored bits. -/

namespace Sys2Proof

/-! ### The words of opcodes RTI and RES -/

theorem decode_rti {w : Word} (h : fieldOpcode w = Opcode.rti.bits) : decode w = .rti (fieldReserved w) := by
  rw [decode, h, Opcode.ofBits_bits]

theorem decode_res {w : Word} (h : fieldOpcode w = Opcode.res.bits) : decode w = .res (fieldReserved w) := by
  rw [decode, h, Opcode.ofBits_bits]

/-- Format RSV has no other fields: a word is its opcode and its ignored bits. -/
theorem encodeRsv_fieldReserved {w : Word} {o : Opcode} (h : fieldOpcode w = o.bits) :
    encodeRsv o (fieldReserved w) = w := by
  rw [encodeRsv, ← h]
  exact (BitVec.extractLsb'_append_extractLsb'_eq_extractLsb' (by decide)).trans BitVec.extractLsb'_eq_self

end Sys2Proof

namespace Sys2Proof.Machine

/-! ### One diagnostic and nothing else -/

theorem exec_rti (ignored : BitVec 12) (s : State) :
    exec (.rti ignored) s = .next { s with diag := s.diag ++ [.reservedOpcode (encodeRsv .rti ignored) s.pc] } :=
  rfl

theorem exec_res (ignored : BitVec 12) (s : State) :
    exec (.res ignored) s = .next { s with diag := s.diag ++ [.reservedOpcode (encodeRsv .res ignored) s.pc] } :=
  rfl

end Sys2Proof.Machine

namespace Sys2Proof.Proofs
open Sys2Proof.Machine

/-- Settles O39: the word executed is rebuilt whole, so the diagnostic carries the word that was decoded. -/
theorem reservedOpcodesDoNothing : Obligations.ReservedOpcodesDoNothing := by
  refine ⟨fun w hw => ⟨decode_rti hw, fun s => ?rti⟩, fun w hw => ⟨decode_res hw, fun s => ?res⟩⟩
  case rti => rw [decode_rti hw, exec_rti, encodeRsv_fieldReserved hw]
  case res => rw [decode_res hw, exec_res, encodeRsv_fieldReserved hw]

end Sys2Proof.Proofs
end

section
/-! PROOF. Words to instructions and back (30_encoding.md R82 to R93): every format gives its fields back to the
decoder, and the decoder's choice of a table row rests on the opcode and the two mode bits alone. -/

namespace Sys2Proof

/-! ### The words of one form -/

theorem decode_addReg {w : Word} (h : fieldOpcode w = Opcode.add.bits) (hmode : fieldImmMode w = false) :
    decode w = .addReg (fieldDr w) (fieldSr1 w) (fieldSr2 w) := by
  rw [decode_add h, hmode]
  rfl

theorem decode_andReg {w : Word} (h : fieldOpcode w = Opcode.and.bits) (hmode : fieldImmMode w = false) :
    decode w = .andReg (fieldDr w) (fieldSr1 w) (fieldSr2 w) := by
  rw [decode_and h, hmode]
  rfl

theorem decode_jsrr {w : Word} (h : fieldOpcode w = Opcode.jsr.bits) (hmode : fieldJsrMode w = false) :
    decode w = .jsrr (fieldSr1 w) := by
  rw [decode_jsr h, hmode]
  rfl

theorem decode_not {w : Word} (h : fieldOpcode w = Opcode.not.bits) : decode w = .not (fieldDr w) (fieldSr1 w) := by
  rw [decode, h, Opcode.ofBits_bits]

theorem decode_trap {w : Word} (h : fieldOpcode w = Opcode.trap.bits) : decode w = decodeTrap (fieldTrapVect8 w) := by
  rw [decode, h, Opcode.ofBits_bits]

/-! ### The three opcodes with a row for a second name -/

theorem decodeTrap_vector (name : TrapName) : decodeTrap name.vector = name.instr := by
  rw [decodeTrap, TrapName.ofVector_vector]

theorem decodeTrap_unknown {v : Byte} (h : v.toNat < 0x20 ∨ 0x25 < v.toNat) : decodeTrap v = .trap v := by
  rw [decodeTrap, (TrapName.ofVector_eq_none v).mpr h]

theorem core_decodeBr (n z p : Bool) (off : BitVec 9) : (decodeBr n z p off).core = .br n z p off := by
  cases n <;> cases z <;> cases p <;> rfl

theorem core_decodeJmp (base : Reg) : (decodeJmp base).core = .jmp base := by
  cases base <;> rfl

theorem wellFormed_decodeBr (n z p : Bool) (off : BitVec 9) : (decodeBr n z p off).wellFormed = true := by
  unfold decodeBr
  split
  case isTrue hmask => exact hmask
  case isFalse => rfl

theorem wellFormed_decodeJmp (base : Reg) : (decodeJmp base).wellFormed = true := by
  cases base <;> rfl

theorem wellFormed_instr (name : TrapName) : name.instr.wellFormed = true := by
  cases name <;> rfl

theorem wellFormed_decodeTrap (v : Byte) : (decodeTrap v).wellFormed = true := by
  unfold decodeTrap
  split
  case h_1 name _ => exact wellFormed_instr name
  case h_2 hnone =>
    simpa only [Instr.wellFormed, Bool.or_eq_true, decide_eq_true_iff] using (TrapName.ofVector_eq_none v).mp hnone

/-! ### The round trip, format by format -/

theorem decode_encodeBr (n z p : Bool) (off : BitVec 9) : decode (encodeBr n z p off) = decodeBr n z p off := by
  simp [decode]

theorem decode_encodeJmp (base : Reg) : decode (encodeJmp base) = decodeJmp base := by
  simp [decode]

theorem decode_encodeTrap (v : Byte) : decode (encodeTrap v) = decodeTrap v := by
  simp [decode]

theorem decode_encode_service (name : TrapName) : decode (encodeTrap name.vector) = name.instr := by
  rw [decode_encodeTrap, decodeTrap_vector]

/-- A well-formed BR, JMP or TRAP is no second spelling of NOP, RET or a service; every other format has one
form. -/
theorem decode_encode {i : Instr} (h : i.wellFormed = true) : decode (encode i) = i := by
  match i, h with
  | .br n z p off, hmask => exact (decode_encodeBr n z p off).trans (if_pos hmask)
  | .jmp base, hbase => exact (decode_encodeJmp base).trans (if_neg (bne_iff_ne.mp hbase))
  | .trap v, hv =>
    have hunknown : v.toNat < 0x20 ∨ 0x25 < v.toNat := by
      simpa only [Instr.wellFormed, Bool.or_eq_true, decide_eq_true_iff] using hv
    exact (decode_encodeTrap v).trans (decodeTrap_unknown hunknown)
  | .nop off, _ => exact decode_encodeBr false false false off
  | .ret, _ => exact decode_encodeJmp .r7
  | .getc, _ => exact decode_encode_service .getc
  | .out, _ => exact decode_encode_service .out
  | .puts, _ => exact decode_encode_service .puts
  | .inKey, _ => exact decode_encode_service .inKey
  | .putsp, _ => exact decode_encode_service .putsp
  | .halt, _ => exact decode_encode_service .halt
  | .addReg .., _ | .addImm .., _ | .andReg .., _ | .andImm .., _ | .not .., _ | .ld .., _ | .ldi .., _ | .ldr .., _
  | .lea .., _ | .st .., _ | .sti .., _ | .str .., _ | .jsr .., _ | .jsrr .., _ | .rti .., _ | .res .., _ =>
    simp [decode, encode]

/-! ### The row of a word -/

/-- The bits that choose among the core rows: the opcode, bit 11 and bit 5 (R86, R94). -/
def rowSelector (opcode : BitVec 4) (jsrMode immMode : Bool) : Word :=
  opcode ++ BitVec.ofBool jsrMode ++ 0#5 ++ BitVec.ofBool immMode ++ 0#5

theorem mask_rowSelector (w : Word) :
    w &&& 0xF820 = rowSelector (fieldOpcode w) (fieldJsrMode w) (fieldImmMode w) := by
  apply BitVec.eq_of_getLsbD_eq
  intro i hi
  rw [rowSelector, BitVec.getLsbD_append, BitVec.getLsbD_append, BitVec.getLsbD_append, BitVec.getLsbD_append]
  interval_cases i <;> simp [fieldOpcode, fieldJsrMode, fieldImmMode]

/-- No mask of these rows has a bit outside 0xF820. -/
theorem coreRows_mask : ∀ r ∈ coreRows, (0xF820 : Word) &&& r.mask = r.mask := by decide

theorem covers_rowSelector {r : Row} (h : r ∈ coreRows) (w : Word) :
    r.covers w = r.covers (rowSelector (fieldOpcode w) (fieldJsrMode w) (fieldImmMode w)) := by
  rw [← mask_rowSelector, Row.covers, Row.covers, BitVec.and_assoc, coreRows_mask r h]

/-- The core row, from the selecting bits: what `decode` chooses by (R86). -/
def coreRowOf (o : Opcode) (jsrMode immMode : Bool) : Row :=
  match o with
  | .add | .and => ⟨o.bits ++ 0#6 ++ BitVec.ofBool immMode ++ 0#5, 0xF020⟩
  | .jsr => ⟨o.bits ++ BitVec.ofBool jsrMode ++ 0#11, 0xF800⟩
  | _ => ⟨o.bits ++ 0#12, 0xF000⟩

theorem tableRow_core_decode (w : Word) :
    tableRow (decode w).core = coreRowOf (Opcode.ofBits (fieldOpcode w)) (fieldJsrMode w) (fieldImmMode w) := by
  cases ho : Opcode.ofBits (fieldOpcode w) <;> simp only [decode, ho]
  case br => rw [core_decodeBr]; rfl
  case jmp => rw [core_decodeJmp]; rfl
  case trap => rw [core_decodeTrap]; rfl
  case add | and => cases fieldImmMode w <;> rfl
  case jsr => cases fieldJsrMode w <;> rfl
  all_goals rfl

/-- For each value of the selecting bits exactly one core row covers the word. -/
theorem coreRows_filter_selector (opcode : BitVec 4) (jsrMode immMode : Bool) :
    coreRows.filter (fun r => r.covers (rowSelector opcode jsrMode immMode)) =
      [coreRowOf (Opcode.ofBits opcode) jsrMode immMode] := by
  revert opcode jsrMode immMode
  decide

theorem coreRows_filter_covers (w : Word) :
    coreRows.filter (fun r => r.covers w) = [tableRow (decode w).core] := by
  rw [tableRow_core_decode, ← coreRows_filter_selector]
  exact List.filter_congr fun r hr => covers_rowSelector hr w

open Laws.TableRow in
/-- A word of a service's vector is of that service's row. -/
theorem covers_service {w : Word} {name : TrapName} (hop : fieldOpcode w = Opcode.trap.bits)
    (hv : fieldTrapVect8 w = name.vector) : (tableRow name.instr).covers w = true := by
  have h : Row.covers ⟨Opcode.trap.bits ++ 0#4 ++ name.vector, 0xF0FF⟩ w = true := covers_trap hop hv
  cases name <;> exact h

open Laws.TableRow in
/-- Every word is of the row of its instruction, second names included. -/
theorem covers_decode (w : Word) : (tableRow (decode w)).covers w = true := by
  have opcode_eq {o : Opcode} (ho : Opcode.ofBits (fieldOpcode w) = o) : fieldOpcode w = o.bits := by
    rw [← ho, Opcode.bits_ofBits]
  cases ho : Opcode.ofBits (fieldOpcode w) <;> simp only [decode, ho]
  case br =>
    unfold decodeBr
    split
    case isTrue => exact covers_opcode (opcode_eq ho)
    case isFalse hmask =>
      have hnone : fieldNzp w = (false, false, false) := by simpa [Prod.ext_iff, and_assoc] using hmask
      exact covers_br (opcode_eq ho) hnone
  case jmp =>
    unfold decodeJmp
    split
    case isTrue hbase => exact covers_jmp (opcode_eq ho) hbase
    case isFalse => exact covers_opcode (opcode_eq ho)
  case trap =>
    unfold decodeTrap
    split
    case h_1 name hname => exact covers_service (opcode_eq ho) (TrapName.vector_of_ofVector hname).symm
    case h_2 => exact covers_opcode (opcode_eq ho)
  case add | and =>
    split
    case isTrue hmode => exact covers_opr (opcode_eq ho) hmode
    case isFalse hmode => exact covers_opr (opcode_eq ho) (Bool.eq_false_of_not_eq_true hmode)
  case jsr =>
    split
    case isTrue hmode => exact covers_jsr (opcode_eq ho) hmode
    case isFalse hmode => exact covers_jsr (opcode_eq ho) (Bool.eq_false_of_not_eq_true hmode)
  all_goals exact covers_opcode (opcode_eq ho)

theorem wellFormed_decode (w : Word) : (decode w).wellFormed = true := by
  cases ho : Opcode.ofBits (fieldOpcode w) <;> simp only [decode, ho]
  case br => exact wellFormed_decodeBr _ _ _ _
  case jmp => exact wellFormed_decodeJmp _
  case trap => exact wellFormed_decodeTrap _
  case add | and | jsr => split <;> rfl
  all_goals rfl

/-! ### Bits that no field covers -/

section
variable (w x : Word) {m : Word}

/-- A field that lies outside a mask is the same after any change within the mask. -/
theorem extract_xor_masked {k len : Nat} (h : m.extractLsb' k len = 0) :
    (w ^^^ (x &&& m)).extractLsb' k len = w.extractLsb' k len := by
  rw [BitVec.extractLsb'_xor, BitVec.extractLsb'_and, h]
  simp

theorem bit_xor_masked {k : Nat} (h : m.getLsbD k = false) : (w ^^^ (x &&& m)).getLsbD k = w.getLsbD k := by
  rw [BitVec.getLsbD_xor, BitVec.getLsbD_and, h, Bool.and_false, Bool.xor_false]

theorem fieldOpcode_xor_masked (h : m.extractLsb' 12 4 = 0) : fieldOpcode (w ^^^ (x &&& m)) = fieldOpcode w :=
  extract_xor_masked w x h

theorem fieldDr_xor_masked (h : m.extractLsb' 9 3 = 0) : fieldDr (w ^^^ (x &&& m)) = fieldDr w :=
  congrArg Reg.ofBits (extract_xor_masked w x h)

theorem fieldSr1_xor_masked (h : m.extractLsb' 6 3 = 0) : fieldSr1 (w ^^^ (x &&& m)) = fieldSr1 w :=
  congrArg Reg.ofBits (extract_xor_masked w x h)

theorem fieldSr2_xor_masked (h : m.extractLsb' 0 3 = 0) : fieldSr2 (w ^^^ (x &&& m)) = fieldSr2 w :=
  congrArg Reg.ofBits (extract_xor_masked w x h)

theorem fieldTrapVect8_xor_masked (h : m.extractLsb' 0 8 = 0) :
    fieldTrapVect8 (w ^^^ (x &&& m)) = fieldTrapVect8 w :=
  extract_xor_masked w x h

theorem fieldImmMode_xor_masked (h : m.getLsbD 5 = false) : fieldImmMode (w ^^^ (x &&& m)) = fieldImmMode w :=
  bit_xor_masked w x h

theorem fieldJsrMode_xor_masked (h : m.getLsbD 11 = false) : fieldJsrMode (w ^^^ (x &&& m)) = fieldJsrMode w :=
  bit_xor_masked w x h

end

section
variable {w : Word} (x : Word)

/-- Bits 4:3 of ADD and AND in register mode (R87). -/
theorem decode_opr_ignored (ho : fieldOpcode w = Opcode.add.bits ∨ fieldOpcode w = Opcode.and.bits)
    (hmode : fieldImmMode w = false) : decode (w ^^^ (x &&& 0x0018)) = decode w := by
  have hop : fieldOpcode (w ^^^ (x &&& 0x0018)) = fieldOpcode w := fieldOpcode_xor_masked w x (by decide)
  have hmode' : fieldImmMode (w ^^^ (x &&& 0x0018)) = false :=
    (fieldImmMode_xor_masked w x (by decide)).trans hmode
  rcases ho with hadd | hand
  · rw [decode_addReg hadd hmode, decode_addReg (hop.trans hadd) hmode', fieldDr_xor_masked w x (by decide),
      fieldSr1_xor_masked w x (by decide), fieldSr2_xor_masked w x (by decide)]
  · rw [decode_andReg hand hmode, decode_andReg (hop.trans hand) hmode', fieldDr_xor_masked w x (by decide),
      fieldSr1_xor_masked w x (by decide), fieldSr2_xor_masked w x (by decide)]

/-- Bits 5:0 of NOT (R87; decision D4). -/
theorem decode_not_ignored (ho : fieldOpcode w = Opcode.not.bits) : decode (w ^^^ (x &&& 0x003F)) = decode w := by
  rw [decode_not ho, decode_not ((fieldOpcode_xor_masked w x (by decide)).trans ho),
    fieldDr_xor_masked w x (by decide), fieldSr1_xor_masked w x (by decide)]

/-- Bits 11:9 and 5:0 of JMP (R87). -/
theorem decode_jmp_ignored (ho : fieldOpcode w = Opcode.jmp.bits) : decode (w ^^^ (x &&& 0x0E3F)) = decode w := by
  rw [decode_jmp ho, decode_jmp ((fieldOpcode_xor_masked w x (by decide)).trans ho),
    fieldSr1_xor_masked w x (by decide)]

/-- Bits 10:9 and 5:0 of JSRR (R87). -/
theorem decode_jsrr_ignored (ho : fieldOpcode w = Opcode.jsr.bits) (hmode : fieldJsrMode w = false) :
    decode (w ^^^ (x &&& 0x063F)) = decode w := by
  rw [decode_jsrr ho hmode, decode_jsrr ((fieldOpcode_xor_masked w x (by decide)).trans ho)
    ((fieldJsrMode_xor_masked w x (by decide)).trans hmode), fieldSr1_xor_masked w x (by decide)]

/-- Bits 11:8 of TRAP (R87; decision D5). -/
theorem decode_trap_ignored (ho : fieldOpcode w = Opcode.trap.bits) : decode (w ^^^ (x &&& 0x0F00)) = decode w := by
  rw [decode_trap ho, decode_trap ((fieldOpcode_xor_masked w x (by decide)).trans ho),
    fieldTrapVect8_xor_masked w x (by decide)]

end

end Sys2Proof

namespace Sys2Proof.Proofs
open Sys2Proof.Machine

/-- Settles O1: every format gives its fields back, and well-formedness shuts out the second spellings of BR, JMP and
TRAP. -/
theorem decodeEncodeRoundTrip : Obligations.DecodeEncodeRoundTrip :=
  fun _ h => decode_encode h

/-- Settles O2: the opcode and the two mode bits of a word select exactly one core row, and the row of NOP, RET or a
service covers the words that decode to it. -/
theorem decodedWordIsOfItsTableRow : Obligations.DecodedWordIsOfItsTableRow :=
  ⟨rfl, fun w => ⟨wellFormed_decode w, covers_decode w, coreRows_filter_covers w⟩⟩

/-- Settles O3: each decoded form reads only fields outside the mask of its ignored bits, and RTI and RES write only a
diagnostic. -/
theorem uncoveredBitsAreIgnored : Obligations.UncoveredBitsAreIgnored :=
  ⟨fun _ x ho hmode => decode_opr_ignored x ho hmode, fun _ x ho => decode_not_ignored x ho,
    fun _ x ho => decode_jmp_ignored x ho, fun _ x ho hmode => decode_jsrr_ignored x ho hmode,
    fun _ x ho => decode_trap_ignored x ho,
    fun a b s => ⟨_, _, exec_rti a s, exec_rti b s⟩, fun a b s => ⟨_, _, exec_res a s, exec_res b s⟩⟩

/-- Settles O4: each word is decoded by evaluation. -/
theorem writtenOutWordsDecode : Obligations.WrittenOutWordsDecode := by
  unfold Obligations.WrittenOutWordsDecode
  decide

end Sys2Proof.Proofs
end

section
/-! PROOF. What every instruction changes and keeps (10_state.md R21 to R23, 20_memory.md R73), said once as the ends
that `exec` can have, and that each instruction answers a next state (30_encoding.md R86). -/

namespace Sys2Proof.Machine

/-! ### Reads that begin an operation -/

/-- An operation that begins with a read goes on from the word read, or ends where the read halted the machine. -/
theorem andThen_next {a : Word} {s t : State} {rest : Word → State → StepResult}
    (h : (memRead a s).andThen rest = .next t) :
    (∃ w u, memRead a s = .value w u ∧ rest w u = .next t) ∨ memRead a s = .stopped t := by
  cases hr : memRead a s with
  | value w u =>
    rw [hr] at h
    exact .inl ⟨w, u, rfl, h⟩
  | stopped u =>
    rw [hr] at h
    cases h
    exact .inr rfl

theorem andThen_total {rest : Word → State → StepResult} (hrest : ∀ w u, ∃ t, rest w u = .next t) (r : ReadResult) :
    ∃ t, r.andThen rest = .next t := by
  cases r with
  | value w u => exact hrest w u
  | stopped u => exact ⟨u, rfl⟩

/-! ### Memory under polls -/

/-- `n` is the memory `m` after any number of polls of the status word (R52). -/
inductive PolledMemory (m : Memory) : Memory → Prop
  | refl : PolledMemory m m
  | key {n : Memory} (k : Word) (h : PolledMemory m n) : PolledMemory m (polledMem k n)
  | noKey {n : Memory} (h : PolledMemory m n) : PolledMemory m (idleMem n)

theorem PolledMemory.trans {m n o : Memory} (h : PolledMemory m n) (h' : PolledMemory n o) : PolledMemory m o := by
  induction h' with
  | refl => exact h
  | key k _ ih => exact ih.key k
  | noKey _ ih => exact ih.noKey

theorem PolledMemory.wf {m n : Memory} (h : PolledMemory m n) (hm : Memory.wf m) : Memory.wf n := by
  induction h with
  | refl => exact hm
  | key k _ ih => exact polledMem_wf ih k
  | noKey _ ih => exact idleMem_wf ih

theorem not_mem_deviceWords {a : Word} (h : a ∉ deviceWords) : a ≠ Config.kbsrAddr ∧ a ≠ Config.kbdrAddr :=
  ⟨List.ne_of_not_mem_cons h, List.ne_of_not_mem_cons (List.not_mem_of_not_mem_cons h)⟩

/-- Polls write no word but the device words. -/
theorem PolledMemory.read_eq {m n : Memory} (h : PolledMemory m n) {a : Word} (ha : a ∉ deviceWords) :
    n.read a = m.read a := by
  obtain ⟨hs, hd⟩ := not_mem_deviceWords ha
  induction h with
  | refl => rfl
  | key k _ ih => exact (polledMem_other _ k hs hd).trans ih
  | noKey _ ih => exact (idleMem_other _ hs).trans ih

theorem memRead_polledMemory {a w : Word} {s u : State} (h : memRead a s = .value w u) :
    PolledMemory s.mem u.mem := by
  rcases memRead_value h with ⟨-, -, rfl⟩ | ⟨-, -, ⟨k, -, rfl⟩ | ⟨-, rfl⟩⟩
  · exact .refl
  · exact .key k .refl
  · exact .noKey .refl

/-! ### Registers -/

theorem sameRegsExcept_of_eq {s t : State} (h : t.regs = s.regs) (ds : List Reg) : SameRegsExcept ds s t :=
  fun r _ => congrArg (RegFile.get · r) h

theorem sameRegsExcept_setReg (r : Reg) (v : Word) (s : State) : SameRegsExcept [r] s (s.setReg r v) :=
  fun _ hq => RegFile.get_set_ne s.regs v (List.ne_of_not_mem_cons hq)

theorem writeResult_flags (dr : Reg) (v : Word) (s : State) :
    (s.writeResult dr v).cond = flags ((s.writeResult dr v).reg dr) := by
  rw [State.writeResult_cond, State.writeResult_reg, if_pos rfl]

/-! ### Loads and stores -/

/-- What a load with destination `dr` keeps, and its two ends: the word read is in DR with its flag in COND, or a poll
halted the machine before anything was written (R154, R206). -/
structure LoadKeeps (dr : Reg) (s t : State) : Prop where
  pc : t.pc = s.pc
  regs : SameRegsExcept [dr] s t
  mem : PolledMemory s.mem t.mem
  hostStop : t.hostStop = s.hostStop
  console : t.console = s.console
  diag : t.diag = s.diag
  ends : t.run = s.run ∧ t.service = s.service ∧ t.cond = flags (t.reg dr) ∨
    t.run = .halted .hostInterrupt ∧ t.service = none ∧ t.cond = s.cond ∧ t.regs = s.regs

theorem loadKeeps_writeResult (dr : Reg) (v : Word) (s : State) : LoadKeeps dr s (s.writeResult dr v) :=
  ⟨rfl, sameRegsExcept_setReg dr v s, .refl, rfl, rfl, rfl, .inl ⟨rfl, rfl, writeResult_flags dr v s⟩⟩

theorem loadKeeps_of_stopped {a : Word} {s t : State} (h : memRead a s = .stopped t) (dr : Reg) : LoadKeeps dr s t := by
  obtain ⟨-, -, rfl⟩ := memRead_stopped h
  exact ⟨rfl, sameRegsExcept_of_eq rfl _, .refl, rfl, rfl, rfl, .inr ⟨rfl, rfl, rfl, rfl⟩⟩

/-- A read before a load adds nothing to what the load may change. -/
theorem LoadKeeps.after_read {a w : Word} {dr : Reg} {s u t : State} (hr : memRead a s = .value w u)
    (h : LoadKeeps dr u t) : LoadKeeps dr s t := by
  obtain ⟨⟨hregs, hpc, hcond, hrun, hserv, hstop, hconsole, hdiag⟩, -⟩ := memRead_frame hr
  refine ⟨h.pc.trans hpc, fun r hne => (h.regs r hne).trans (sameRegsExcept_of_eq hregs [dr] r hne),
    (memRead_polledMemory hr).trans h.mem, h.hostStop.trans hstop, h.console.trans hconsole, h.diag.trans hdiag, ?_⟩
  rcases h.ends with ⟨trun, tserv, tcond⟩ | ⟨thalt, tserv, tcond, tregs⟩
  · exact .inl ⟨trun.trans hrun, tserv.trans hserv, tcond⟩
  · exact .inr ⟨thalt, tserv, tcond.trans hcond, tregs.trans hregs⟩

/-- An operation that begins with a read keeps what a load keeps where the rest of it does. -/
theorem andThen_loadKeeps {a : Word} {dr : Reg} {s t : State} {rest : Word → State → StepResult}
    (hrest : ∀ w u, rest w u = .next t → LoadKeeps dr u t) (h : (memRead a s).andThen rest = .next t) :
    LoadKeeps dr s t := by
  rcases andThen_next h with ⟨w, u, hr, hw⟩ | hstop
  · exact (hrest w u hw).after_read hr
  · exact loadKeeps_of_stopped hstop dr

theorem loadFrom_keeps {dr : Reg} {ea : Word} {s t : State} (h : loadFrom dr ea s = .next t) : LoadKeeps dr s t :=
  andThen_loadKeeps (fun w u hw => by cases hw; exact loadKeeps_writeResult dr w u) h

theorem execLdi_keeps {dr : Reg} {off : BitVec 9} {s t : State} (h : execLdi dr off s = .next t) : LoadKeeps dr s t :=
  andThen_loadKeeps (fun _ _ hw => loadFrom_keeps hw) h

/-- A store changes memory at its address alone (R163). -/
theorem storeTo_frame {sr : Reg} {ea : Word} {s t : State} (h : storeTo sr ea s = .next t) :
    t.regs = s.regs ∧ t.cond = s.cond ∧ t.pc = s.pc ∧ SamePorts s t ∧ SameMemExcept [ea] s t := by
  cases h
  exact ⟨rfl, rfl, rfl, ⟨rfl, rfl, rfl, rfl, rfl, rfl⟩, sameMemExcept_memWrite (as := []) (fun _ _ => rfl) ea _⟩

/-- What a store keeps, wherever its pointer is: the run state too, or a poll halted the machine (R163, R206). -/
structure StoreKeeps (s t : State) : Prop where
  regs : t.regs = s.regs
  cond : t.cond = s.cond
  pc : t.pc = s.pc
  console : t.console = s.console
  diag : t.diag = s.diag
  hostStop : t.hostStop = s.hostStop
  wf : Memory.wf s.mem → Memory.wf t.mem
  ends : t.run = s.run ∨ t.service = none

theorem storeTo_keeps {sr : Reg} {ea : Word} {s t : State} (h : storeTo sr ea s = .next t) : StoreKeeps s t := by
  cases h
  exact ⟨rfl, rfl, rfl, rfl, rfl, rfl, fun hm => Memory.write_wf hm _ _, .inl rfl⟩

theorem execSti_keeps {sr : Reg} {off : BitVec 9} {s t : State} (h : execSti sr off s = .next t) : StoreKeeps s t := by
  rcases andThen_next h with ⟨w, u, hr, hw⟩ | hstop
  · obtain ⟨⟨hregs, hpc, hcond, hrun, -, hstop, hconsole, hdiag⟩, -⟩ := memRead_frame hr
    cases hw
    exact ⟨hregs, hcond, hpc, hconsole, hdiag, hstop, fun hm => Memory.write_wf (memRead_wf hm hr) _ _, .inl hrun⟩
  · obtain ⟨-, -, rfl⟩ := memRead_stopped hstop
    exact ⟨rfl, rfl, rfl, rfl, rfl, rfl, id, .inr rfl⟩

/-! ### The ends of an instruction -/

/-- The next states that the instruction `i` can have from `s`, one case for each family. -/
inductive ExecEnd (i : Instr) (s : State) : State → Prop
  /-- ADD, AND, NOT, LEA. -/
  | operate (dr : Reg) (v : Word) (hd : i.destinations = [dr]) : ExecEnd i s (s.writeResult dr v)
  /-- LD, LDR, LDI. -/
  | load (dr : Reg) (t : State) (hd : i.destinations = [dr]) (h : LoadKeeps dr s t) : ExecEnd i s t
  /-- ST, STR, STI. -/
  | store (t : State) (hs : i.stores = true) (h : StoreKeeps s t) : ExecEnd i s t
  /-- BR, NOP, JMP, RET. -/
  | jump (a : Word) (h : i.transfersControl = false → a = s.pc) : ExecEnd i s (s.setPc a)
  /-- JSR, JSRR. -/
  | call (a : Word) (hd : i.destinations = [.r7]) (ht : i.transfersControl = true) :
    ExecEnd i s ((s.setReg .r7 s.pc).setPc a)
  /-- RTI, RES. -/
  | reserved (e : DiagEvent) : ExecEnd i s (s.emitDiag e)
  /-- TRAP and the six services. -/
  | trap (v : Byte) (t : State) (hi : i.core = .trap v) (h : exec i s = .next t) : ExecEnd i s t

theorem exec_end {i : Instr} {s t : State} (h : exec i s = .next t) : ExecEnd i s t := by
  match i with
  | .addReg dr .. | .addImm dr .. | .andReg dr .. | .andImm dr .. | .not dr .. | .lea dr .. =>
    cases h
    exact .operate dr _ rfl
  | .ld dr .. | .ldr dr .. => exact .load dr t rfl (loadFrom_keeps h)
  | .ldi dr .. => exact .load dr t rfl (execLdi_keeps h)
  | .st .. | .str .. => exact .store t rfl (storeTo_keeps h)
  | .sti .. => exact .store t rfl (execSti_keeps h)
  | .br n z p off =>
    cases (exec_br n z p off s).symm.trans h
    exact .jump _ nofun
  | .nop off =>
    cases (execNop_eq off s).symm.trans h
    exact .jump s.pc fun _ => rfl
  | .jmp .. | .ret =>
    cases h
    exact .jump _ nofun
  | .jsr .. | .jsrr .. =>
    cases h
    exact .call _ rfl rfl
  | .rti .. | .res .. =>
    cases h
    exact .reserved _
  | .trap .. | .getc | .out | .puts | .inKey | .putsp | .halt => exact .trap _ t rfl h

/-! ### Registers, pc and memory -/

/-- A register that is no destination of the instruction is kept (R21, R22). -/
theorem exec_sameRegs {i : Instr} {s t : State} (h : exec i s = .next t) : SameRegsExcept i.destinations s t := by
  cases exec_end h with
  | operate dr v hd => exact hd ▸ sameRegsExcept_setReg dr v s
  | load dr _ hd hload => exact hd ▸ hload.regs
  | store _ _ hstore => exact sameRegsExcept_of_eq hstore.regs _
  | jump a _ => exact sameRegsExcept_of_eq rfl _
  | call a hd _ => exact hd ▸ sameRegsExcept_setReg .r7 s.pc s
  | reserved e => exact sameRegsExcept_of_eq rfl _
  | trap v _ hi _ =>
    obtain ⟨⟨-, hregs⟩, -⟩ := trap_keepsPcAndRegs hi h
    exact hregs

/-- Only a control transfer writes `pc` (R23). -/
theorem exec_pc {i : Instr} (hi : i.transfersControl = false) {s t : State} (h : exec i s = .next t) : t.pc = s.pc := by
  cases exec_end h with
  | operate dr v _ => rfl
  | load dr _ _ hload => exact hload.pc
  | store _ _ hstore => exact hstore.pc
  | jump a ha => exact ha hi
  | call a _ ht => exact absurd (hi.symm.trans ht) Bool.false_ne_true
  | reserved e => rfl
  | trap v _ hcore _ =>
    obtain ⟨⟨hpc, -⟩, -⟩ := trap_keepsPcAndRegs hcore h
    exact hpc

/-- The string loop writes memory only by its polls (R173, R175; decision D15). -/
theorem printString_polledMemory (chars : Word → List Byte) (more : Word → Service) (fuel : Nat) (a : Word)
    (s : State) : PolledMemory s.mem (printString chars more fuel a s).mem :=
  printString_induction (P := fun t => PolledMemory s.mem t.mem) chars more (fun k _ ht => ht.key k)
    (fun _ ht => ht.noKey) (fun _ ht => ht) (fun _ _ ht => ht) (fun _ ht => ht) (fun _ _ ht => ht) fuel a s .refl

theorem getcRead_mem (s : State) : (getcRead s).mem = s.mem :=
  awaitKey_induction (P := fun t => t.mem = s.mem) .getc _ s rfl (fun _ _ ht => ht) (fun _ ht => ht) fun _ ht => ht

theorem inRead_mem (s : State) : (inRead s).mem = s.mem :=
  awaitKey_induction (P := fun t => t.mem = s.mem) .inKey _ s rfl (fun _ _ ht => ht) (fun _ ht => ht) fun _ ht => ht

theorem polledMemory_of_eq {m n : Memory} (h : n = m) : PolledMemory m n := h ▸ .refl

theorem runTrap_polledMemory (name : TrapName) (s : State) : PolledMemory s.mem (runTrap name s).mem := by
  cases name with
  | getc => exact polledMemory_of_eq (getcRead_mem s)
  | out => exact .refl
  | puts => exact printString_polledMemory putsChars .puts Config.passLength (s.reg .r0) s
  | inKey => exact polledMemory_of_eq (inRead_mem (s.writeChars Config.inPrompt))
  | putsp => exact printString_polledMemory putspChars .putsp Config.passLength (s.reg .r0) s
  | halt => exact .refl

theorem continueService_polledMemory (v : Service) (s : State) : PolledMemory s.mem (continueService v s).mem := by
  cases v with
  | getc => exact polledMemory_of_eq (getcRead_mem s)
  | inKey => exact polledMemory_of_eq (inRead_mem s)
  | puts a => exact printString_polledMemory putsChars .puts Config.passLength a s
  | putsp a => exact printString_polledMemory putspChars .putsp Config.passLength a s

theorem trap_polledMemory {i : Instr} {v : Byte} (hi : i.core = .trap v) {s t : State} (h : exec i s = .next t) :
    PolledMemory s.mem t.mem := by
  rcases trap_cases hi with ⟨name, hname⟩ | hfault
  · cases (hname.exec s).symm.trans h
    exact runTrap_polledMemory name s
  · cases (hfault s).symm.trans h
    exact .refl

/-- An instruction that is no store writes memory only by polls (R73). -/
theorem exec_polledMemory {i : Instr} (hi : i.stores = false) {s t : State} (h : exec i s = .next t) :
    PolledMemory s.mem t.mem := by
  cases exec_end h with
  | operate | jump | call | reserved => exact .refl
  | load dr _ _ hload => exact hload.mem
  | store _ hs _ => exact absurd (hi.symm.trans hs) Bool.false_ne_true
  | trap v _ hcore _ => exact trap_polledMemory hcore h

/-! ### A next state -/

theorem exec_total (i : Instr) (s : State) : ∃ t, exec i s = .next t := by
  have load_total (dr : Reg) (ea : Word) (u : State) : ∃ t, loadFrom dr ea u = .next t :=
    andThen_total (fun _ _ => ⟨_, rfl⟩) _
  match i with
  | .ld dr .. | .ldr dr .. => exact load_total dr _ s
  | .ldi dr .. => exact andThen_total (load_total dr) _
  | .sti .. => exact andThen_total (fun _ _ => ⟨_, rfl⟩) _
  | .trap v =>
    cases hv : TrapName.ofVector v with
    | some name => exact ⟨_, (runsService_trap hv).exec s⟩
    | none => exact ⟨_, exec_trap_unknown hv s⟩
  | .addReg .. | .addImm .. | .andReg .. | .andImm .. | .not .. | .lea .. | .st .. | .str .. | .br .. | .nop ..
  | .jmp .. | .ret | .jsr .. | .jsrr .. | .rti .. | .res .. | .getc | .out | .puts | .inKey | .putsp | .halt =>
    exact ⟨_, rfl⟩

theorem cycle_total (s : State) : ∃ t, cycle s = .next t := by
  unfold cycle
  split
  · exact exec_total _ _
  · exact ⟨_, rfl⟩

theorem boundary_total (s : State) : ∃ t, boundary s = .next t := by
  unfold boundary
  split
  · exact ⟨_, rfl⟩
  · exact cycle_total _
  · exact cycle_total _

/-! ### A step while RUNNING: a service goes on, or a boundary (R116) -/

theorem step_of_service {s : State} {v : Service} (hrun : s.run = .running) (hserv : s.service = some v) :
    step s = .next (continueService v s) := by
  rw [step, stepOnce, hrun, hserv]

theorem step_of_boundary {s : State} (hrun : s.run = .running) (hserv : s.service = none) : step s = boundary s := by
  rw [step, stepOnce, hrun, hserv]

theorem step_total (s : State) : ∃ t, step s = .next t := by
  by_cases hrun : s.run = .running
  · cases hserv : s.service with
    | some v => exact ⟨_, step_of_service hrun hserv⟩
    | none => exact step_of_boundary hrun hserv ▸ boundary_total s
  · exact ⟨s, step_of_not_running hrun⟩

end Sys2Proof.Machine

namespace Sys2Proof.Proofs
open Sys2Proof.Machine

/-- Settles O40: the first six write a result to DR and COND, the others at most `pc` and, for the two calls, R7. -/
theorem operateAndControlFrame : Obligations.OperateAndControlFrame := by
  refine ⟨fun i dr s t hi h => ?operate, fun i s t hi h => ?control⟩
  case operate =>
    obtain ⟨v, rfl⟩ : ∃ v, t = s.writeResult dr v := by
      rcases hi with ⟨a, b, rfl⟩ | ⟨a, k, rfl⟩ | ⟨a, b, rfl⟩ | ⟨a, k, rfl⟩ | ⟨a, rfl⟩ | ⟨off, rfl⟩ <;>
        exact ⟨_, (Host.Outcome.next.inj h).symm⟩
    exact ⟨writeResult_flags dr v s, sameRegsExcept_setReg dr v s, rfl, fun _ _ => rfl,
      ⟨rfl, rfl, rfl, rfl, rfl, rfl⟩⟩
  case control =>
    have hend : (∃ a, t = s.setPc a) ∨
        ((∃ off, i = .jsr off) ∨ ∃ b, i = .jsrr b) ∧ ∃ a, t = (s.setReg .r7 s.pc).setPc a := by
      rcases hi with ⟨n, z, p, off, rfl⟩ | ⟨off, rfl⟩ | ⟨b, rfl⟩ | rfl | ⟨off, rfl⟩ | ⟨b, rfl⟩
      · exact .inl ⟨_, Host.Outcome.next.inj (h.symm.trans (exec_br n z p off s))⟩
      · exact .inl ⟨s.pc, Host.Outcome.next.inj (h.symm.trans (execNop_eq off s))⟩
      · exact .inl ⟨_, Host.Outcome.next.inj (h.symm.trans (exec_jmp b s))⟩
      · exact .inl ⟨_, Host.Outcome.next.inj (h.symm.trans (exec_ret s))⟩
      · exact .inr ⟨.inl ⟨off, rfl⟩, _, Host.Outcome.next.inj (h.symm.trans (exec_jsr off s))⟩
      · exact .inr ⟨.inr ⟨b, rfl⟩, _, Host.Outcome.next.inj (h.symm.trans (exec_jsrr b s))⟩
    rcases hend with ⟨a, rfl⟩ | ⟨hcall, a, rfl⟩
    · exact ⟨rfl, fun _ _ => rfl, ⟨rfl, rfl, rfl, rfl, rfl, rfl⟩, sameRegsExcept_of_eq rfl _, fun _ _ => rfl⟩
    · refine ⟨rfl, fun _ _ => rfl, ⟨rfl, rfl, rfl, rfl, rfl, rfl⟩, sameRegsExcept_setReg .r7 s.pc s,
        fun hjsr hjsrr => ?_⟩
      rcases hcall with ⟨off, rfl⟩ | ⟨b, rfl⟩
      · exact absurd rfl (hjsr off)
      · exact absurd rfl (hjsrr b)

/-- Settles O41: each of the three ends in one load, from the state that its reads before left. -/
theorem loadFrame : Obligations.LoadFrame := by
  intro i dr s t hi h
  have hload : LoadKeeps dr s t := by
    rcases hi with ⟨off, rfl⟩ | ⟨off, rfl⟩ | ⟨base, off, rfl⟩
    · exact loadFrom_keeps (ea := pcRel9 off s) h
    · exact execLdi_keeps h
    · exact loadFrom_keeps (ea := baseOff base off s) h
  exact ⟨hload.pc, hload.regs, fun _ ha => hload.mem.read_eq ha, hload.hostStop, hload.console, hload.diag, hload.ends⟩

/-- Settles O42: ST and STR are one write; STI is one write from the state its pointer's read left, or nothing but the
halt of its poll. -/
theorem storeFrame : Obligations.StoreFrame := by
  intro sr s t
  refine ⟨fun off h => storeTo_frame h, fun base off h => storeTo_frame h, fun off h => ?_⟩
  have hkeeps : StoreKeeps s t := execSti_keeps h
  refine ⟨hkeeps.regs, hkeeps.cond, hkeeps.pc, hkeeps.console, hkeeps.diag, hkeeps.hostStop, ?_⟩
  have store_from {ea : Word} {u : State} (hr : memRead (pcRel9 off s) s = .value ea u) :
      SameMemExcept [ea] u t ∧ SamePorts u t := by
    have hstore : storeTo sr ea u = .next t := by
      rw [← h]
      exact (congrArg (ReadResult.andThen · (storeTo sr)) hr).symm
    obtain ⟨-, -, -, hports, hmem⟩ := storeTo_frame hstore
    exact ⟨hmem, hports⟩
  refine ⟨fun ea u hr => store_from hr, fun hplain => (store_from (memRead_plain hplain s)).symm, fun u hr => ?_⟩
  have ht : t = u := Host.Outcome.next.inj
    (h.symm.trans (congrArg (ReadResult.andThen · (storeTo sr)) hr))
  obtain ⟨-, -, rfl⟩ := memRead_stopped hr
  exact ht ▸ fun _ _ => rfl

/-- Settles O45: of the ends of an instruction none writes a register but a destination. -/
theorem registersAreWrittenOnlyAsDestinations : Obligations.RegistersAreWrittenOnlyAsDestinations :=
  fun _ _ _ h => exec_sameRegs h

/-- Settles O46: of the ends of an instruction only a jump and a call write `pc`. -/
theorem pcIsWrittenOnlyByTransfers : Obligations.PcIsWrittenOnlyByTransfers :=
  fun _ _ _ hi h => exec_pc hi h

/-- Settles O47: an instruction that is no store only polls, and polls write the device words alone. -/
theorem memoryIsWrittenOnlyByStores : Obligations.MemoryIsWrittenOnlyByStores :=
  fun _ _ _ hi h _ ha => (exec_polledMemory hi h).read_eq ha

/-- Settles O53: no arm of `exec` answers a fault or a refusal, and a step answers itself or what `exec` does. -/
theorem everyInstructionAnswersANextState : Obligations.EveryInstructionAnswersANextState :=
  ⟨exec_total, step_total⟩

end Sys2Proof.Proofs
end

section
/-! PROOF. The invariant (10_state.md R25, R36, R37) and the one fault (60_exceptions.md R202, R203). Memory stays
canonical under polls and writes, COND is a flag or as it was, and a service is begun or goes on only while RUNNING. -/

namespace Sys2Proof.Machine

/-! ### The service in progress -/

/-- The third clause of the invariant, as the two ways to meet it (R119). -/
def ServiceOnlyRunning (s : State) : Prop := s.run = .running ∨ s.service = none

theorem awaitKey_serviceOnlyRunning {s : State} (hrun : s.run = .running) (wait : Service)
    (done : Word → State → State) : ServiceOnlyRunning (awaitKey wait done s) := by
  rcases awaitKey_cases wait done s with ⟨k, -, e⟩ | ⟨-, e⟩ | ⟨-, e⟩ <;> rw [e]
  · exact .inr rfl
  · exact .inl hrun
  · exact .inr rfl

theorem printString_serviceOnlyRunning (chars : Word → List Byte) (more : Word → Service) (fuel : Nat) (a : Word)
    {s : State} (hrun : s.run = .running) : ServiceOnlyRunning (printString chars more fuel a s) := by
  induction fuel generalizing a s with
  | zero => exact .inl hrun
  | succ n ih =>
    simp only [printString]
    split
    · rename_i t hr
      obtain ⟨-, -, rfl⟩ := memRead_stopped hr
      exact .inr rfl
    · rename_i w t hr
      obtain ⟨⟨-, -, -, hkept, -⟩, -⟩ := memRead_frame hr
      split
      · exact .inr rfl
      · exact ih (a + 1) (s := t.writeChars (chars w)) (hkept.trans hrun)

theorem runTrap_serviceOnlyRunning (name : TrapName) {s : State} (hrun : s.run = .running) :
    ServiceOnlyRunning (runTrap name s) := by
  cases name with
  | getc => exact awaitKey_serviceOnlyRunning hrun _ _
  | out => exact .inl hrun
  | puts => exact printString_serviceOnlyRunning putsChars .puts Config.passLength (s.reg .r0) hrun
  | inKey => exact awaitKey_serviceOnlyRunning (s := s.writeChars Config.inPrompt) hrun _ _
  | putsp => exact printString_serviceOnlyRunning putspChars .putsp Config.passLength (s.reg .r0) hrun
  | halt => exact .inr rfl

theorem continueService_serviceOnlyRunning (v : Service) {s : State} (hrun : s.run = .running) :
    ServiceOnlyRunning (continueService v s) := by
  cases v with
  | getc => exact awaitKey_serviceOnlyRunning hrun _ _
  | inKey => exact awaitKey_serviceOnlyRunning hrun _ _
  | puts a => exact printString_serviceOnlyRunning putsChars .puts Config.passLength a hrun
  | putsp a => exact printString_serviceOnlyRunning putspChars .putsp Config.passLength a hrun

theorem exec_serviceOnlyRunning {i : Instr} {s t : State} (hrun : s.run = .running) (h : exec i s = .next t) :
    ServiceOnlyRunning t := by
  cases exec_end h with
  | operate | jump | call | reserved => exact .inl hrun
  | load dr _ _ hload =>
    rcases hload.ends with ⟨hkept, -⟩ | ⟨-, hnone, -⟩
    · exact .inl (hkept.trans hrun)
    · exact .inr hnone
  | store _ _ hstore => exact hstore.ends.imp_left (·.trans hrun)
  | trap v _ hcore _ =>
    rcases trap_cases hcore with ⟨name, hname⟩ | hfault
    · cases (hname.exec s).symm.trans h
      exact runTrap_serviceOnlyRunning name hrun
    · cases (hfault s).symm.trans h
      exact .inr rfl

/-! ### Memory and COND -/

/-- Every instruction keeps memory canonical. -/
theorem exec_wf {i : Instr} {s t : State} (hm : Memory.wf s.mem) (h : exec i s = .next t) : Memory.wf t.mem := by
  cases hi : i.stores with
  | false => exact (exec_polledMemory hi h).wf hm
  | true =>
    match i, hi with
    | .st .., _ | .str .., _ => exact (storeTo_keeps h).wf hm
    | .sti .., _ => exact (execSti_keeps h).wf hm

/-- A flag-setter leaves one of the three flags or is halted with COND as it was; no other instruction writes COND. -/
theorem exec_condLegal {i : Instr} {s t : State} (hc : condLegal s.cond = true) (h : exec i s = .next t) :
    condLegal t.cond = true := by
  cases hset : i.setsCond with
  | false => rwa [exec_cond hset h]
  | true =>
    obtain ⟨dr, -, hflag⟩ := exec_flagSetting hset h
    cases hflag with
    | written v u => exact condLegal_flags v
    | halted _ _ hcarry =>
      rwa [cond_eq_of_eq_withCond (Host.Outcome.next.inj (h.symm.trans (hcarry s.cond)))]

/-! ### The invariant -/

theorem inv_of {s : State} (hm : Memory.wf s.mem) (hc : condLegal s.cond = true) (hs : ServiceOnlyRunning s) : s.Inv :=
  ⟨hm, hc, fun hne => hs.resolve_right hne⟩

theorem cycle_inv {s t : State} (hm : Memory.wf s.mem) (hc : condLegal s.cond = true) (hrun : s.run = .running)
    (h : cycle s = .next t) : t.Inv := by
  rcases cycle_cases h with ⟨w, u, hr, he⟩ | ⟨u, hr, rfl⟩
  · obtain ⟨⟨-, -, hcond, hkept, -⟩, -⟩ := memRead_frame hr
    have hm' : Memory.wf u.mem := memRead_wf hm hr
    have hc' : condLegal u.cond = true := by rwa [hcond]
    exact inv_of (exec_wf (s := u.advancePc) hm' he) (exec_condLegal (s := u.advancePc) hc' he)
      (exec_serviceOnlyRunning (s := u.advancePc) (hkept.trans hrun) he)
  · obtain ⟨-, -, rfl⟩ := memRead_stopped hr
    exact inv_of hm hc (.inr rfl)

theorem continueService_inv {s : State} (hm : Memory.wf s.mem) (hc : condLegal s.cond = true)
    (hrun : s.run = .running) (v : Service) : (continueService v s).Inv := by
  have hcond : (continueService v s).cond = s.cond := cond_eq_of_carries (continueService_withCond v) s
  exact inv_of ((continueService_polledMemory v s).wf hm) (hcond ▸ hc) (continueService_serviceOnlyRunning v hrun)

theorem step_inv {s t : State} (hinv : s.Inv) (h : step s = .next t) : t.Inv := by
  have ⟨hm, hc, _⟩ := hinv
  rcases step_cases h with ⟨-, rfl⟩ | ⟨hrun, v, -, rfl⟩ | ⟨-, -, -, rfl⟩ | ⟨hrun, -, hs, hcycle, -⟩
  · exact hinv
  · exact continueService_inv hm hc hrun v
  · exact inv_of hm hc (.inr rfl)
  · exact cycle_inv (s := { s with hostStop := hs }) hm hc hrun hcycle

theorem resetWith_inv {c : Word} (hc : condLegal c = true) (gpr : RegFile) (kbd : Keyboard) (stop : Option Nat) :
    (State.resetWith gpr c kbd stop).Inv :=
  inv_of Memory.wf_nil hc (.inr rfl)

/-! ### The fault -/

/-- A fault between services changes only the run state. -/
theorem raise_of_service_none {s : State} (h : s.service = none) (r : FaultReason) :
    s.raise r = { s with run := .faulted r } :=
  congrArg (fun v => { s with run := .faulted r, service := v }) h.symm

end Sys2Proof.Machine

namespace Sys2Proof.Proofs
open Sys2Proof.Machine

/-- Settles O54: of the four things a step can do, a stop and the host interrupt touch neither memory nor COND, and a
service and a cycle keep each of the three properties. -/
theorem everyStepKeepsTheInvariant : Obligations.EveryStepKeepsTheInvariant :=
  fun _ _ hinv h => step_inv hinv h

/-- Settles O55: memory is empty after reset, COND is the legal value given, and no service is in progress. -/
theorem invariantHoldsAtReset : Obligations.InvariantHoldsAtReset :=
  ⟨fun gpr _ kbd stop hc => resetWith_inv hc gpr kbd stop, resetWith_inv (by decide) _ _ _⟩

/-- Settles O56: each value is the one that `State.resetWith` writes, and an empty memory reads as zero. -/
theorem resetLeavesTheStatedValues : Obligations.ResetLeavesTheStatedValues :=
  fun _ _ _ _ => ⟨rfl, rfl, Memory.read_nil, rfl, rfl, rfl, rfl⟩

/-- Settles O58: a step that does not keep the run state ran a TRAP, and of its two ends only that of an unknown vector
is a fault. -/
theorem faultOnlyThroughAnUnknownVector : Obligations.FaultOnlyThroughAnUnknownVector := by
  rintro s t hm hrun h ⟨r, hfault⟩
  rcases step_run hm h with hkept | ⟨hserv, hpc, hop, hs, htrap⟩
  · simp [RunKept, hfault, hrun] at hkept
  · cases htrap with
    | halted hv => cases hfault
    | faulted hv =>
      exact ⟨hserv, hpc, hop, (TrapName.ofVector_eq_none _).mp hv, hs,
        raise_of_service_none (s := { s with pc := s.pc + 1, hostStop := hs }) hserv _⟩

end Sys2Proof.Proofs
end

section
/-! PROOF. The string services (45_trap.md R173, R175; 40_instruction_cycle.md R118): a string up to its zero word, and
through a poll of the status word, begun by `exec` or gone on with by `step`. -/

namespace Sys2Proof.Machine

/-! ### The words of a string -/

section
variable (chars : Word → List Byte) (more : Word → Service) {a : Word} {s : State} {ws : List Word}

section
variable (hws : ∀ (j : Nat) (w : Word), ws[j]? = some w →
  w ≠ 0 ∧ a + BitVec.ofNat 16 j ≠ Config.kbsrAddr ∧ s.mem.read (a + BitVec.ofNat 16 j) = w)
include hws

/-- A string that ends within the words left to read is printed, and the service is over (R173, R175). -/
theorem printString_to_zero {n : Nat} (hlen : ws.length < n)
    (hend : a + BitVec.ofNat 16 ws.length ≠ Config.kbsrAddr) (hzero : s.mem.read (a + BitVec.ofNat 16 ws.length) = 0) :
    printString chars more n a s = (s.writeChars (ws.flatMap chars)).serviceDone := by
  obtain ⟨fuel, rfl⟩ : ∃ fuel, n = ws.length + (fuel + 1) := Nat.exists_eq_add_of_lt hlen
  rw [printString_words chars more _ ws a s hws, printString_plain hend]
  exact if_pos hzero

/-- A string up to the status word is printed, and the rest of the pass begins with a poll. -/
theorem printString_to_status (hlen : ws.length < 65536)
    (hend : a + BitVec.ofNat 16 ws.length = Config.kbsrAddr) :
    printString chars more Config.passLength a s =
      printString chars more (65535 - ws.length + 1) Config.kbsrAddr (s.writeChars (ws.flatMap chars)) := by
  have hpass : Config.passLength = ws.length + (65535 - ws.length + 1) := by
    show 65536 = _
    omega
  rw [hpass, printString_words chars more _ ws a s hws, hend]

end

/-- The words of one pass after the status word do not come round to it again. -/
theorem after_status_ne {j : Nat} (hj : j < 65535) : Config.kbsrAddr + 1 + BitVec.ofNat 16 j ≠ Config.kbsrAddr := by
  intro h
  have hwrap : (1 : Word) + BitVec.ofNat 16 j = 0 := by
    rwa [BitVec.add_assoc, add_eq_left] at h
  have hnat : (1 + j) % 65536 = 0 := by simpa using congrArg BitVec.toNat hwrap
  omega

/-- A whole pass ends at the address where it began. -/
theorem pass_comes_round {l n : Nat} (hend : a + BitVec.ofNat 16 l = Config.kbsrAddr) (hlen : l + 1 + n = 65536) :
    Config.kbsrAddr + 1 + BitVec.ofNat 16 n = a := by
  have hpass : BitVec.ofNat 16 l + (1 + BitVec.ofNat 16 n) = 0#16 := by
    rw [show (1 : Word) = BitVec.ofNat 16 1 from rfl, ← BitVec.ofNat_add, ← BitVec.ofNat_add, ← Nat.add_assoc, hlen]
    rfl
  rw [← hend, BitVec.add_assoc, BitVec.add_assoc, hpass, BitVec.add_zero]

/-- Characters written before and after a poll are those of one string. -/
theorem writeChars_through_poll (m : Memory) (w : Word) (vs : List Word) :
    (((s.writeChars (ws.flatMap chars)).polled m).writeChars (chars w)).writeChars (vs.flatMap chars) =
      (s.polled m).writeChars ((ws ++ w :: vs).flatMap chars) := by
  simp [State.writeChars, State.polled, State.afterCall]

section
variable {vs : List Word}
  (hvs : ∀ (j : Nat) (w : Word), vs[j]? = some w → w ≠ 0 ∧ s.mem.read (Config.kbsrAddr + 1 + BitVec.ofNat 16 j) = w)
include hvs

/-- Words after the status word, no more than a pass has, are no status word. -/
theorem words_after_status (hlen : vs.length ≤ 65535) (j : Nat) (w : Word) (hj : vs[j]? = some w) :
    w ≠ 0 ∧ Config.kbsrAddr + 1 + BitVec.ofNat 16 j ≠ Config.kbsrAddr ∧
      s.mem.read (Config.kbsrAddr + 1 + BitVec.ofNat 16 j) = w := by
  obtain ⟨hw, hread⟩ := hvs j w hj
  obtain ⟨hlt, -⟩ := List.getElem?_eq_some_iff.mp hj
  exact ⟨hw, after_status_ne (by omega), hread⟩

/-- After the poll, up to a zero word within the pass. -/
theorem printString_after_status_to_zero {n : Nat} (hn : vs.length < n) (hlen : vs.length < 65535)
    (hzero : s.mem.read (Config.kbsrAddr + 1 + BitVec.ofNat 16 vs.length) = 0) :
    printString chars more n (Config.kbsrAddr + 1) s = (s.writeChars (vs.flatMap chars)).serviceDone :=
  printString_to_zero chars more (words_after_status hvs (Nat.le_of_lt hlen)) hn (after_status_ne hlen) hzero

/-- After the poll, for the rest of the pass. -/
theorem printString_after_status_pass (hlen : vs.length ≤ 65535) :
    printString chars more vs.length (Config.kbsrAddr + 1) s =
      (s.writeChars (vs.flatMap chars)).serviceAt (more (Config.kbsrAddr + 1 + BitVec.ofNat 16 vs.length)) :=
  printString_words chars more 0 vs _ s (words_after_status hvs hlen)

end

end

/-! ### The two string services as one -/

theorem stringChars_false : stringChars false = putsChars := rfl

theorem stringChars_true : stringChars true = putspChars := by
  funext w
  simp only [stringChars, putspChars, true_and, ite_not]

theorem exec_stringInstr (packed : Bool) (s : State) :
    exec (stringInstr packed) s =
      .next (printString (stringChars packed) (stringService packed) Config.passLength (s.reg .r0) s) := by
  cases packed with
  | false => rw [stringChars_false]; rfl
  | true => rw [stringChars_true]; rfl

theorem continueService_stringService (packed : Bool) (a : Word) (s : State) :
    continueService (stringService packed a) s =
      printString (stringChars packed) (stringService packed) Config.passLength a s := by
  cases packed with
  | false => rw [stringChars_false]; rfl
  | true => rw [stringChars_true]; rfl

theorem flatMap_putsChars (ws : List Word) : ws.flatMap putsChars = ws.map (fun w => w.extractLsb' 0 8) :=
  List.map_eq_flatMap.symm

end Sys2Proof.Machine

namespace Sys2Proof.Proofs
open Sys2Proof.Machine

/-- Settles O31: the words are printed up to the zero word, each by its low byte. -/
theorem putsPrintsTheString : Obligations.PutsPrintsTheString := by
  intro s ws hlen hws hend hzero
  rw [exec_puts, printString_to_zero putsChars .puts hws (n := Config.passLength) hlen hend hzero, flatMap_putsChars]
  rfl

/-- Settles O32: the words are printed up to the zero word, each by its one or two bytes. -/
theorem putspPrintsThePackedString : Obligations.PutspPrintsThePackedString := by
  intro s ws hlen hws hend hzero
  rw [exec_putsp, printString_to_zero putspChars .putsp hws (n := Config.passLength) hlen hend hzero]
  rfl

/-- Settles O33: `exec` and `step` run one string loop from `a`, which prints `ws` and then meets a zero word or
polls. -/
theorem stepGoesOnWithTheString : Obligations.StepGoesOnWithTheString := by
  intro packed a s o ws hm ho hlen hws
  obtain rfl : o = .next (printString (stringChars packed) (stringService packed) Config.passLength a s) := by
    rcases ho with ⟨rfl, rfl⟩ | ⟨hrun, hserv, rfl⟩
    · exact exec_stringInstr packed s
    · rw [step_of_service hrun hserv, continueService_stringService]
  refine ⟨fun hend hzero => ?_, fun hend => ?_⟩
  · rw [printString_to_zero _ _ hws (n := Config.passLength) hlen hend hzero]
    rfl
  rw [printString_to_status _ _ hws hlen hend]
  refine ⟨fun hk => ?_, fun hk => ⟨idleMem s.mem, sameMemExcept_idleMem rfl, idleMem_status hm, ?_⟩,
    fun k hk => ⟨polledMem k s.mem, sameMemExcept_polledMem rfl, polledMem_status hm k, polledMem_data hm k,
      fun vs hvs => ?_⟩⟩
  · exact congrArg Host.Outcome.next (printString_status_interrupt _ _ _ (s := s.writeChars _) hk)
  · exact congrArg Host.Outcome.next (printString_status_noKey _ _ _ (s := s.writeChars _) hm hk)
  · rw [printString_status_key _ _ _ (s := s.writeChars _) hm hk]
    refine ⟨fun hlt hzero => congrArg Host.Outcome.next ?_, fun hpass => congrArg Host.Outcome.next ?_⟩
    · refine (printString_after_status_to_zero _ _ hvs (by omega) (by omega) hzero).trans ?_
      rw [writeChars_through_poll]
      rfl
    · rw [show 65535 - ws.length = vs.length by omega]
      refine (printString_after_status_pass _ _ hvs (by omega)).trans ?_
      rw [writeChars_through_poll, pass_comes_round hend hpass]
      rfl

end Sys2Proof.Proofs
end

section
/-! PROOF. The keyboard port and the other services (20_memory.md R52, 45_trap.md R170 to R177,
40_instruction_cycle.md R119): a poll, a blocking read by what the host answers, OUT, HALT and the unknown vector. -/

namespace Sys2Proof

/-! ### The words of the services -/

theorem decode_service {w : Word} (h : fieldOpcode w = Opcode.trap.bits) {name : TrapName}
    (hv : w.extractLsb' 0 8 = name.vector) : decode w = name.instr := by
  rw [decode_trap h, fieldTrapVect8, hv, decodeTrap_vector]

end Sys2Proof

namespace Sys2Proof.Machine

section
variable {s : State} {k : Word}

/-! ### GETC, from its blocking read on -/

theorem getcRead_key (h : s.kbd.answer = .key k) :
    getcRead s = { s with regs := s.regs.set .r0 k, kbd := s.kbd.advance, service := none } :=
  awaitKey_key h _ _

theorem getcRead_noKey (h : s.kbd.answer = .noKey) :
    getcRead s = { s with kbd := s.kbd.advance, service := some .getc } :=
  awaitKey_noKey h _ _

theorem getcRead_interrupt (h : s.kbd.answer = .interrupt) :
    getcRead s = { s with kbd := s.kbd.advance, run := .halted .hostInterrupt, service := none } :=
  awaitKey_interrupt h _ _

/-! ### IN, from its blocking read on -/

theorem inRead_key (h : s.kbd.answer = .key k) :
    inRead s = { s with regs := s.regs.set .r0 k, kbd := s.kbd.advance, service := none,
                        console := s.console ++ [k.extractLsb' 0 8] } :=
  awaitKey_key h _ _

theorem inRead_noKey (h : s.kbd.answer = .noKey) :
    inRead s = { s with kbd := s.kbd.advance, service := some .inKey } :=
  awaitKey_noKey h _ _

theorem inRead_interrupt (h : s.kbd.answer = .interrupt) :
    inRead s = { s with kbd := s.kbd.advance, run := .halted .hostInterrupt, service := none } :=
  awaitKey_interrupt h _ _

/-! ### The two services, begun and held -/

theorem exec_getc (s : State) : exec .getc s = .next (getcRead s) := rfl

/-- IN writes its prompt before it asks for a key (R174; decision D12). -/
theorem exec_inKey (s : State) : exec .inKey s = .next (inRead (s.writeChars Config.inPrompt)) := rfl

theorem step_getc (hrun : s.run = .running) (hserv : s.service = some .getc) : step s = .next (getcRead s) :=
  step_of_service hrun hserv

theorem step_inKey (hrun : s.run = .running) (hserv : s.service = some .inKey) : step s = .next (inRead s) :=
  step_of_service hrun hserv

/-- A read that is held again leaves the service as it is. -/
theorem service_eq_self {v : Service} (hserv : s.service = some v) :
    { s with kbd := s.kbd.advance, service := some v } = { s with kbd := s.kbd.advance } := by
  rw [← hserv]

end

end Sys2Proof.Machine

namespace Sys2Proof.Proofs
open Sys2Proof.Machine

/-- Settles O20: a status read is a poll, whose memory is that of its answer. -/
theorem statusReadPollsTheKeyboard : Obligations.StatusReadPollsTheKeyboard :=
  fun s hm => ⟨fun k hk => ⟨polledMem k s.mem, memRead_status_key hm hk, polledMem_status hm k, polledMem_data hm k,
      sameMemExcept_polledMem (t := s.polled (polledMem k s.mem)) rfl⟩,
    fun hk => ⟨idleMem s.mem, memRead_status_noKey hm hk, idleMem_status hm, fun _ ha => idleMem_other s.mem ha⟩,
    fun hk => memRead_status_interrupt hk⟩

/-- Settles O28: GETC is its blocking read, by the two answers that end it. -/
theorem getcReadsOneKey : Obligations.GetcReadsOneKey :=
  fun s => ⟨fun _ hk => (exec_getc s).trans (congrArg _ (getcRead_key hk)),
    fun hk => (exec_getc s).trans (congrArg _ (getcRead_interrupt hk))⟩

/-- Settles O29: IN is its blocking read from the state in which the prompt is written. -/
theorem inPromptsReadsAndEchoes : Obligations.InPromptsReadsAndEchoes :=
  fun s => ⟨fun _ hk => (exec_inKey s).trans (congrArg _ (inRead_key hk)),
    fun hk => (exec_inKey s).trans (congrArg _ (inRead_interrupt hk))⟩

/-- Settles O37: `exec` begins the read and `step` asks again, and each answer of the host has one effect in both. -/
theorem blockedReadHoldsTheCycle : Obligations.BlockedReadHoldsTheCycle := by
  refine ⟨fun s hk => ⟨?_, ?_⟩, fun s hrun => ⟨fun hk hserv => ?_, fun k hk hserv => ?_, fun k hk hserv => ?_,
    fun hk hserv => ?_⟩⟩
  · rw [exec_getc, getcRead_noKey hk]
  · rw [exec_inKey, inRead_noKey (s := s.writeChars Config.inPrompt) hk]
    rfl
  · rcases hserv with hserv | hserv
    · rw [step_getc hrun hserv, getcRead_noKey hk, service_eq_self hserv]
    · rw [step_inKey hrun hserv, inRead_noKey hk, service_eq_self hserv]
  · rw [step_getc hrun hserv, getcRead_key hk]
  · rw [step_inKey hrun hserv, inRead_key hk]
  · rcases hserv with hserv | hserv
    · rw [step_getc hrun hserv, getcRead_interrupt hk]
    · rw [step_inKey hrun hserv, inRead_interrupt hk]

/-- Settles O30: a vector that names a service decodes to it, and OUT appends one byte. -/
theorem outWritesTheLowByte : Obligations.OutWritesTheLowByte :=
  ⟨fun _ hw => ⟨decode_service (name := .getc) hw, decode_service (name := .out) hw, decode_service (name := .puts) hw,
    decode_service (name := .inKey) hw, decode_service (name := .putsp) hw⟩, fun _ => rfl⟩

/-- Settles O35: vector 0x25 decodes to HALT, whose meaning is `State.halt` alone. -/
theorem haltStopsTheMachine : Obligations.HaltStopsTheMachine :=
  ⟨fun _ hw => decode_service (name := .halt) hw, fun _ => rfl⟩

/-- Settles O36: such a vector names no service, and the dispatcher raises the fault. -/
theorem unknownVectorFaults : Obligations.UnknownVectorFaults :=
  fun v s hv => exec_trap_unknown ((TrapName.ofVector_eq_none v).mpr hv) s

end Sys2Proof.Proofs
end

section
/-! PROOF. BR by the low bits of COND (42_control.md R140), JSRR (R144), NOT (41_operate.md R134), the fetch of a stored
word (20_memory.md R68), and the register-file contract (10_state.md R29). -/

namespace Sys2Proof.Machine

/-! ### The branch test by bits 2 to 0 of COND -/

theorem setWidth_and_low (m : BitVec 3) (c : Word) : m.setWidth 16 &&& c = (m &&& c.extractLsb' 0 3).setWidth 16 := by
  apply BitVec.eq_of_getLsbD_eq
  intro i hi
  by_cases hlow : i < 3
  · simp [hi, hlow]
  · simp [hlow, BitVec.getLsbD_of_ge m i (by omega)]

theorem setWidth_eq_zero_iff (m : BitVec 3) : m.setWidth 16 = 0 ↔ m = 0 := by
  revert m
  decide

/-- The branch is taken exactly if the mask meets the three low bits of COND (R140). -/
theorem branchTaken_iff_low (n z p : Bool) (c : Word) :
    branchTaken n z p c = true ↔
      (BitVec.ofBool n ++ BitVec.ofBool z ++ BitVec.ofBool p : BitVec 3) &&& c.extractLsb' 0 3 ≠ 0 := by
  rw [branchTaken, bne_iff_ne, branchMask, setWidth_and_low, Ne, setWidth_eq_zero_iff]

theorem extract_low_of_masked {c d : Word} (h : c &&& 0x0007 = d &&& 0x0007) :
    c.extractLsb' 0 3 = d.extractLsb' 0 3 := by
  have hlow (x : Word) : (x &&& 0x0007).extractLsb' 0 3 = x.extractLsb' 0 3 := by
    rw [BitVec.extractLsb'_and]
    exact BitVec.and_allOnes
  rw [← hlow c, h, hlow]

theorem branchTaken_of_masked {c d : Word} (h : c &&& 0x0007 = d &&& 0x0007) (n z p : Bool) :
    branchTaken n z p c = branchTaken n z p d := by
  rw [Bool.eq_iff_iff, branchTaken_iff_low, branchTaken_iff_low, extract_low_of_masked h]

/-! ### NOT and JSRR -/

theorem exec_not (dr sr : Reg) (s : State) : exec (.not dr sr) s = .next (s.writeResult dr (0xFFFF - s.reg sr)) :=
  congrArg (fun v => Host.Outcome.next (s.writeResult dr v)) (BitVec.allOnes_sub_eq_not (s.reg sr)).symm

/-! ### Boundaries -/

theorem step_hostInterrupt {s : State} (hrun : s.run = .running) (hserv : s.service = none)
    (hdue : s.hostStop = some 0) : step s = .next (s.halt .hostInterrupt) := by
  rw [step_of_boundary hrun hserv, boundary, hdue]

end Sys2Proof.Machine

namespace Sys2Proof.Proofs
open Sys2Proof.Machine

/-- Settles O13: the mask has three bits, so the branch test sees three bits of COND. -/
theorem branchIgnoresHighCondBits : Obligations.BranchIgnoresHighCondBits := by
  intro n z p off s c hc
  refine ⟨_, exec_br n z p off s, ?_, ?_⟩
  · rw [exec_br, branchTaken_of_masked hc]
  · simp only [branchTaken_iff_low, ne_eq, ite_not]

/-- Settles O11: `~~~` is the difference from 0xFFFF. -/
theorem notWritesTheComplement : Obligations.NotWritesTheComplement := by
  refine ⟨fun w hw => decode_not hw, fun dr sr s => ?_⟩
  rw [exec_not, writeResult_eq]

/-- Settles O16: the base is read after R7 is written, so R7 as a base gives the link. -/
theorem jsrrLinksThenReadsTheBase : Obligations.JsrrLinksThenReadsTheBase := by
  refine ⟨fun w hw hmode => decode_jsrr hw hmode, fun base s => ?_⟩
  rw [exec_jsrr, State.setReg_reg]
  rfl

/-- Settles O27: the store leaves pc, and a plain read at its address gives the stored word. -/
theorem storedWordIsFetchedNext : Obligations.StoredWordIsFetchedNext := by
  intro i sr s t hm hi hpc h
  have hstore : exec i s = storeTo sr s.pc s := by
    rcases hi with ⟨off, rfl, hea⟩ | ⟨base, off, rfl, hea⟩
    · exact (exec_st sr off s).trans (congrArg (storeTo sr · s) hea.symm)
    · exact (exec_str sr base off s).trans (congrArg (storeTo sr · s) hea.symm)
  cases hstore.symm.trans h
  rw [memWrite_pc, memRead_plain hpc, memWrite_mem, Memory.read_write_self hm]

/-- Settles O6: the three ranges of an index are tested in order. -/
theorem registerFileContract : Obligations.RegisterFileContract := by
  intro s v k
  refine ⟨fun b => ?_, rfl, rfl, rfl, rfl, fun hk => ?_⟩
  · have hb : b.toNat < 8 := b.isLt
    rw [State.entryGet, State.entrySet, if_pos hb, if_pos hb, BitVec.ofNat_toNat, BitVec.setWidth_eq]
    exact ⟨rfl, rfl⟩
  · have h8 : ¬ k < 8 := by omega
    have h8' : k ≠ 8 := by omega
    have h9 : k ≠ 9 := by omega
    simp only [State.entryGet, State.entrySet, if_neg h8, if_neg h8', if_neg h9, and_self]

/-- Settles O51: neither HALTED nor FAULTED goes on. -/
theorem stoppedMachineStaysAsItIs : Obligations.StoppedMachineStaysAsItIs :=
  fun _ hrun => step_of_not_running hrun

/-- Settles O52: the boundary looks at the host interrupt port before it runs a cycle. -/
theorem hostInterruptWinsAtTheBoundary : Obligations.HostInterruptWinsAtTheBoundary := by
  intro s hrun hserv hdue
  rw [step_hostInterrupt hrun hserv hdue, halt_of_service_none hserv]

end Sys2Proof.Proofs
end

section
/-! PROOF. The start-up sequence (70_reset_and_hazards.md R230 to R236). -/

namespace Sys2Proof.Machine

theorem load_short {image : List Byte} (h : image.length < 2) (m : Memory) : load image m = .error .truncated := by
  match image, h with
  | [], _ => rfl
  | [_], _ => rfl

theorem load_long {image : List Byte} (h : 2 ≤ image.length) (m : Memory) : ∃ m', load image m = .ok m' := by
  match image, h with
  | _ :: _ :: _, _ => exact ⟨_, rfl⟩

section
variable (gpr : RegFile) (c : Word) (kbd : Keyboard) (stop : Option Nat) {image : List Byte}

theorem launch_error {e : LoadError} (h : load image [] = .error e) : launch gpr c kbd stop image = .error e := by
  rw [launch, h]

theorem launch_ok {m : Memory} (h : load image [] = .ok m) :
    launch gpr c kbd stop image = .ok { State.resetWith gpr c kbd stop with mem := m } := by
  rw [launch, h]

end

end Sys2Proof.Machine

namespace Sys2Proof.Proofs
open Sys2Proof.Machine

/-- Settles O60: a launch fails as its load does, and otherwise is the reset state with the loaded memory. -/
theorem launchStartsAtTheEntryPoint : Obligations.LaunchStartsAtTheEntryPoint := by
  intro gpr c kbd stop image
  refine ⟨fun hshort => launch_error gpr c kbd stop (load_short hshort []), fun hlong => ?_⟩
  obtain ⟨m, hm⟩ := load_long hlong []
  exact ⟨_, launch_ok gpr c kbd stop hm, rfl, rfl, rfl, rfl, rfl, hm⟩

end Sys2Proof.Proofs
end
